-- ==== Sys2Proof/Word.lean ====
section
/-! DEFINITION. The word types of the block's ports (R45, R48, R60, R61, R70, R71). -/

namespace Sys2Proof

/-- One Bit, a value in 0, 1 (R10): `true` is 1. -/
abbrev Bit := Bool

/-- A 16-bit port: a codeword, an error mask, a seed or `RES` (R61, R23). -/
abbrev Word := BitVec 16

/-- An 11-bit data word, the bus form of a DataBlock (R60). -/
abbrev DataWord := BitVec 11

/-- A 36-bit command word `CMD[35:0]` (R71). -/
abbrev CmdWord := BitVec 36

/-- One character, `CHAR_W = 32` bits: its Unicode code point (R9, R41, R70). -/
abbrev Symbol := BitVec 32

end Sys2Proof
end

