-- ==== Sys2Proof/Syntax.lean ====
section
/-! DEFINITION. The commands of the block: one constructor per row of spec/opcode_table.json (R73, R81). -/

namespace Sys2Proof

/-- A command, without its sequence operand `SIN`, which stands outside the command word (R22, R71).
Fields are the operands of the row's format (R72); ignored bits are not part of a command (R75). -/
inductive Instr where
  /-- Opcode 0x1, format F0: Text to Bits (R100). -/
  | tobits
  /-- Opcode 0x2, format F0: Bits to Text (R101). -/
  | totext
  /-- Opcode 0x3, format F0: Bits to Blocks (R103). -/
  | split
  /-- Opcode 0x4, format F0: Blocks to Bits (R105). -/
  | reassemble
  /-- Opcode 0x5, format FD: encode the data word `d` (R120). -/
  | encode (d : DataWord)
  /-- Opcode 0x6, format FC: decode the 16-bit word `cw` (R128). -/
  | decode (cw : Word)
  /-- Opcode 0x7, format FC: classify the 16-bit word `cw` (R127). -/
  | syndrome (cw : Word)
  /-- Opcode 0x8, format FC: random bit flips of `cw` (R158). -/
  | corrupt (cw : Word)
  /-- Opcode 0x9, format FCM: forced flips of `cw` by the mask `m` (R160). -/
  | flip (cw m : Word)
  /-- Opcode 0xA, format F0: the whole-request loss check (R161). -/
  | loss
  /-- Opcode 0xB, format F0: the pipeline on a Text (R181). -/
  | process
  /-- Opcode 0xC, format FS: load the random source (R162). -/
  | seed (a : Word)
  /-- Opcode 0x0: reserved (R74). -/
  | reserved0
  /-- Opcode 0xD: reserved (R74). -/
  | reservedD
  /-- Opcode 0xE: reserved (R74). -/
  | reservedE
  /-- Opcode 0xF: reserved (R74). -/
  | reservedF
  /-- The pseudo-instruction `FLIPPOS cw, p` or `FLIPPOS cw, p, q` (R81): one FLIP whose mask flips the
  positions `p` and, if given, `q`. No word decodes to it: its words are FLIP's (log entry 10). -/
  | flippos (cw : Word) (p : Nat) (q : Option Nat)
  deriving DecidableEq, Repr

end Sys2Proof
end

