-- ==== Sys2Proof/WellFormed.lean ====
section
/-! DEFINITION. Which terms of `Instr` are legal commands (R74, R77, R81). -/

namespace Sys2Proof

/-- A position of a codeword, 1..16 (R10, R81: "A position outside 1..16 is an assembly error"). -/
def legalPosition (p : Nat) : Bool := 1 ≤ p && p ≤ 16

/-- A legal command. Every data word, codeword and mask is a legal operand (R76, R77); a seed is legal unless
0x0000 (R77); a reserved opcode spells no command (R74); FLIPPOS takes positions 1..16 (R81). -/
def Instr.wf : Instr → Bool
  | .tobits => true
  | .totext => true
  | .split => true
  | .reassemble => true
  | .encode _ => true
  | .decode _ => true
  | .syndrome _ => true
  | .corrupt _ => true
  | .flip _ _ => true
  | .loss => true
  | .process => true
  | .seed a => a != 0x0000#16
  | .reserved0 => false
  | .reservedD => false
  | .reservedE => false
  | .reservedF => false
  | .flippos _ p none => legalPosition p
  | .flippos _ p (some q) => legalPosition p && legalPosition q

end Sys2Proof
end

