-- ==== Sys2Proof/Decode.lean ====
section
/-! DEFINITION. From command words to commands and back (R71-R75, R81). -/

namespace Sys2Proof

/-- `OP = CMD[35:32]` (R71). -/
def opField (w : CmdWord) : BitVec 4 := w.extractLsb' 32 4

/-- `A = CMD[31:16]` (R71). -/
def aField (w : CmdWord) : Word := w.extractLsb' 16 16

/-- `B = CMD[15:0]` (R71). -/
def bField (w : CmdWord) : Word := w.extractLsb' 0 16

/-- The data word of format FD: `A[10:0]`, with `A[15:11]` ignored (R72). -/
def dField (w : CmdWord) : DataWord := (aField w).extractLsb' 0 11

/-- The command a 36-bit word spells, selected by the four bits `CMD[35:32]` alone (R73). Reserved opcodes have
constructors of their own, so no other command takes their words (R74). -/
def decodeWord (w : CmdWord) : Instr :=
  match (opField w).getLsbD 3, (opField w).getLsbD 2, (opField w).getLsbD 1, (opField w).getLsbD 0 with
  | false, false, false, false => .reserved0
  | false, false, false, true => .tobits
  | false, false, true , false => .totext
  | false, false, true , true => .split
  | false, true , false, false => .reassemble
  | false, true , false, true => .encode (dField w)
  | false, true , true , false => .decode (aField w)
  | false, true , true , true => .syndrome (aField w)
  | true , false, false, false => .corrupt (aField w)
  | true , false, false, true => .flip (aField w) (bField w)
  | true , false, true , false => .loss
  | true , false, true , true => .process
  | true , true , false, false => .seed (aField w)
  | true , true , false, true => .reservedD
  | true , true , true , false => .reservedE
  | true , true , true , true => .reservedF

/-- Why a bit pattern is no command word. -/
inductive DecodeError where
  /-- A bit above `CMD[35]` is set: a command word has exactly 36 bits (R71, R78). -/
  | wordTooWide
  deriving DecidableEq, Repr

/-- Decode a number read as a bit pattern: exactly the numbers below 2^36 are command words (R71, R78). -/
def decodeBits (w : Nat) : Except DecodeError Instr :=
  if w < 2 ^ 36 then .ok (decodeWord (BitVec.ofNat 36 w)) else .error .wordTooWide

/-- The command the decoder reads from the low `nbits` bits of `w`, every higher bit being 0; bit 0 of `w` is
`CMD[0]`, as spec/opcode_table.json numbers a row's match and mask. -/
def decodeTableWord (nbits w : Nat) : Option Instr :=
  (decodeBits (w % 2 ^ nbits)).toOption

/-- The mask bit of position `p`: `1 << (16 - p)` (R61). -/
def onehot (p : Nat) : Word := 1#16 <<< (16 - p)

/-- The mask FLIPPOS expands to: `onehot p`, or `onehot p` xor `onehot q` (R81). -/
def flipposMask (p : Nat) : Option Nat → Word
  | none => onehot p
  | some q => onehot p ^^^ onehot q

/-- `CMD = OP, A, B`, most significant field first (R71, R80). -/
def packCmd (op : BitVec 4) (a b : Word) : CmdWord := op ++ a ++ b

/-- The opcode of a command (R73); FLIPPOS is spelled with FLIP's (R81). -/
def Instr.opcode : Instr → BitVec 4
  | .reserved0 => 0x0
  | .tobits => 0x1
  | .totext => 0x2
  | .split => 0x3
  | .reassemble => 0x4
  | .encode _ => 0x5
  | .decode _ => 0x6
  | .syndrome _ => 0x7
  | .corrupt _ => 0x8
  | .flip _ _ => 0x9
  | .loss => 0xA
  | .process => 0xB
  | .seed _ => 0xC
  | .reservedD => 0xD
  | .reservedE => 0xE
  | .reservedF => 0xF
  | .flippos _ _ _ => 0x9

/-- The command word of a command, ignored bits written as 0 (R75, R80). A data word travels zero-extended in
the field `A` (R60). -/
def encode : Instr → CmdWord
  | .reserved0 => packCmd 0x0 0 0
  | .tobits => packCmd 0x1 0 0
  | .totext => packCmd 0x2 0 0
  | .split => packCmd 0x3 0 0
  | .reassemble => packCmd 0x4 0 0
  | .encode d => packCmd 0x5 (d.zeroExtend 16) 0
  | .decode cw => packCmd 0x6 cw 0
  | .syndrome cw => packCmd 0x7 cw 0
  | .corrupt cw => packCmd 0x8 cw 0
  | .flip cw m => packCmd 0x9 cw m
  | .loss => packCmd 0xA 0 0
  | .process => packCmd 0xB 0 0
  | .seed a => packCmd 0xC a 0
  | .reservedD => packCmd 0xD 0 0
  | .reservedE => packCmd 0xE 0 0
  | .reservedF => packCmd 0xF 0 0
  | .flippos cw p q => packCmd 0x9 cw (flipposMask p q)

/-- The bits of a command word that its format reads: OP, and the operand bits of R72. The others are ignored
(R75). -/
def Instr.usedBits : Instr → CmdWord
  | .tobits => 0xF00000000
  | .totext => 0xF00000000
  | .split => 0xF00000000
  | .reassemble => 0xF00000000
  | .encode _ => 0xF07FF0000
  | .decode _ => 0xFFFFF0000
  | .syndrome _ => 0xFFFFF0000
  | .corrupt _ => 0xFFFFF0000
  | .flip _ _ => 0xFFFFFFFFF
  | .loss => 0xF00000000
  | .process => 0xF00000000
  | .seed _ => 0xFFFFF0000
  | .reserved0 => 0xF00000000
  | .reservedD => 0xF00000000
  | .reservedE => 0xF00000000
  | .reservedF => 0xF00000000
  | .flippos _ _ _ => 0xFFFFFFFFF

end Sys2Proof
end

