-- ==== Sys2Proof/Config.lean ====
section
/-! DEFINITION. The static configuration (R8, R9, R27) and the free values (R152). -/

namespace Sys2Proof

/-- How a draw gets its value (R9): `free` is the normative reading (R152), `refLfsr` the reference
configuration (R154-R157). -/
inductive RngMode where
  | free
  | refLfsr
  deriving DecidableEq, Repr

/-- Whether PROCESS keeps the padding of the last block in its output (R9, R184). -/
inductive PadMode where
  | keepPadding
  | truncate
  deriving DecidableEq, Repr

/-- A probability parameter, the fraction `num / den` (R8). -/
structure Prob where
  num : Nat
  den : Nat
  deriving DecidableEq, Repr

/-- The parameters an instance is built with. They are not state (R27, R32, D28); the model carries them in
`State.cfg`, which nothing writes (log entry 1). -/
structure Config where
  /-- `RNG_MODE` (R9). -/
  rngMode : RngMode
  /-- `LFSR_RESET`, nonzero (R9). -/
  lfsrReset : Word
  /-- `PAD_MODE` (R9). -/
  padMode : PadMode
  /-- `MAX_CHARS`, the longest sequence operand (R9, R41). -/
  maxChars : Nat
  /-- `N_INSTANCES`, at least 1 (R9). -/
  nInstances : Nat
  /-- `P_LOSS` (R8). -/
  pLoss : Prob
  /-- `P_EVENT` (R8). -/
  pEvent : Prob
  /-- `P_DOUBLE` (R8). -/
  pDouble : Prob
  deriving DecidableEq, Repr

/-- A probability: a fraction between 0 and 1. -/
def Prob.wf (p : Prob) : Bool := 0 < p.den && p.num ≤ p.den

/-- The conditions R8 and R9 put on the parameters. -/
def Config.wf (c : Config) : Bool :=
  c.lfsrReset != 0 && 1 ≤ c.nInstances && c.pLoss.wf && c.pEvent.wf && c.pDouble.wf

/-- `MAX_CHARS` is OPEN in R9: a free value (log entry 2). -/
opaque Config.openMaxChars : Nat

/-- `N_INSTANCES - 1`, OPEN in R9: a free value (log entry 2). -/
opaque Config.openPeers : Nat

/-- The defaults of R8 and R9; what R9 leaves OPEN is a free value (log entry 2). -/
def Config.default : Config where
  rngMode := .free
  lfsrReset := 0xACE1
  padMode := .keepPadding
  maxChars := Config.openMaxChars
  nInstances := Config.openPeers + 1
  pLoss := ⟨1, 100⟩
  pEvent := ⟨7, 100⟩
  pDouble := ⟨5, 100⟩

/-- What another instance can do to the shared random source between two draws of this one (R54, R214). -/
inductive PeerAct where
  /-- It takes a draw (R155). -/
  | draw
  /-- It issues SEED with this operand; 0 is refused and does nothing (R162). -/
  | seed (a : Word)
  /-- It is reset, which loads `LFSR_RESET` into the shared source (R231). -/
  | reset
  deriving DecidableEq, Repr

/-- What the environment contributes to one draw: the value under FREE mode for a Bit kind and for the position
kind, whose range is 1..15 (`pos + 1`), and what the other instances did to the shared source since this
instance's draw before (R150, R152, R54). -/
structure DrawEnv where
  bit : Bit
  pos : Fin 15
  peers : List PeerAct
  deriving DecidableEq, Repr, Inhabited

/-- The environment's contribution to the draw with this number, where `Source.env` does not say it: a free value,
so that every sequence of draw values is possible (R152; log entry 3). -/
opaque Config.freeDraw : Nat → DrawEnv

end Sys2Proof
end

