-- ==== Sys2Proof/Machine/State.lean ====
section
/-! DEFINITION. Everything the spec gives one instance to hold, as plain data, and its reset value
(R20-R33, R41, R200-R207). -/

namespace Sys2Proof.Machine

/-- A typed sequence, the value of `SIN` or `SOUT` (R41). -/
inductive SeqVal where
  /-- Text: one 32-bit symbol per character. -/
  | text (cs : List Symbol)
  /-- Bits. -/
  | bits (bs : List Bit)
  /-- Blocks: one 11-bit data word per block. -/
  | blocks (ds : List DataWord)
  deriving DecidableEq, Repr

/-- The four rows of the classification table (R17, R67, R125). -/
inductive Verdict where
  | noError
  | singleExtra
  | singleCorrected
  | doubleDetected
  deriving DecidableEq, Repr

/-- The completion status of a command (R68). `malformed` is the host's: no command of the block gives it
(R204). -/
inductive Status where
  | ok
  | malformed
  | loss
  | ded
  deriving DecidableEq, Repr

/-- The result record of a command; `none` is a field the command does not produce (R15, R23, R24). -/
structure Result where
  /-- `RES`: data word zero-extended, codeword, or loss flag. -/
  res : Option Word := none
  /-- `SYN`, the syndrome (R65). -/
  syn : Option (BitVec 4) := none
  /-- `OVP`, the overall parity of the 16 input bits (R66). -/
  ovp : Option Bit := none
  /-- `VERDICT`; its 2-bit code is `Verdict.code` (R67). -/
  verdict : Option Verdict := none
  /-- `ERRPOS`, 0..16 (R69). -/
  errpos : Option (BitVec 5) := none
  /-- `EMASK`, the mask applied to a codeword. -/
  emask : Option Word := none
  /-- `STATUS`; its 2-bit code is `Status.code` (R68). -/
  status : Option Status := none
  /-- `SOUT`, the output sequence. -/
  sout : Option SeqVal := none
  deriving DecidableEq, Repr

/-- Every field `none`: the record before any command and after a reset (R32, R231). -/
def Result.empty : Result := {}

/-- The phases of the PROCESS sequencer (R29, R188). -/
inductive Phase where
  | idle
  | losschk
  | block
  | finish (st : Status)
  deriving DecidableEq, Repr

/-- The PROCESS sequencer state `seq` (R29). -/
structure Seq where
  phase : Phase
  /-- Payload bits after TOBITS. -/
  bits : List Bit
  /-- Output of SPLIT. -/
  blocks : List DataWord
  /-- Index of the next block to process. -/
  k : Nat
  /-- Decoded blocks so far. -/
  acc : List DataWord
  deriving DecidableEq, Repr

/-- `seq` between commands and after a reset: phase IDLE, the other fields empty or 0 (R29, R32, R231). -/
def Seq.idle : Seq := ⟨.idle, [], [], 0, []⟩

/-- The random source as this instance sees it (R28, R150-R157). -/
structure Source where
  /-- The 16-bit register `lfsr` (R28), the block's only hidden state (R31). -/
  lfsr : Word
  /-- The environment's contributions to the coming draws, next one first; after its end, draw number `n` takes
  `Config.freeDraw n`. The model's own field: the oracle of R152 as plain data (log entry 3). -/
  env : List DrawEnv
  /-- How many draws this instance has taken. The model's own field: the index of the next free value
  (R152, R187; log entry 3). -/
  drawn : Nat
  deriving DecidableEq, Repr

/-- What the world outside does to the instance, in time order (R22, R51, R54, R230; log entry 4). -/
inductive HostEvent where
  /-- The host issues a command word with its sequence operand, if any (R22). -/
  | command (cmd : CmdWord) (sin : Option SeqVal)
  /-- The reset input, between commands (R230). -/
  | reset
  /-- The reset input arrives while the command given is executing (R232; log entry 6). -/
  | resetDuring (cmd : CmdWord) (sin : Option SeqVal)
  /-- Another instance acts on the shared random source (R54, R214; log entry 9). -/
  | peer (act : PeerAct)
  deriving DecidableEq, Repr

/-- The three draws of one Bit (R150): `LOSSD`, `EVENTD`, `DOUBLED`. The fourth kind, `POSD`, has the range 1..15. -/
inductive BitDraw where
  | lossd
  | eventd
  | doubled
  deriving DecidableEq, Repr

/-- The errors the block raises (R200, R202, R203). `MalformedInput` is the host's (R204) and the relay errors are
outside the block (R205). -/
inductive BlockError where
  | simulatedLoss
  | doubleErrorDetected
  deriving DecidableEq, Repr

/-- The machine: the spec's two persistent elements (R21), its interface values (R22, R23), its configuration
(R8, R9) and the inputs still to come. -/
structure State where
  /-- The static configuration; no step writes it (R27; log entry 1). -/
  cfg : Config
  /-- The random source with `lfsr` (R21(a), R28). -/
  src : Source
  /-- The PROCESS sequencer (R21(b), R29). -/
  seq : Seq
  /-- The result record of the last command (R23, R25). -/
  result : Result
  /-- `SIN`, the sequence operand of the command now running (R22, R41). -/
  sin : Option SeqVal
  /-- The host's events still to come, oldest first. The model's own field (log entry 4). -/
  host : List HostEvent
  deriving DecidableEq, Repr

/-- The register `lfsr` (R28). -/
abbrev State.lfsr (s : State) : Word := s.src.lfsr

/-- The machine never stops with a fault: an error ends its command with a STATUS and the machine goes on
(R201, R208, R209). So there is no constructor. Safe: no step can be said to fault. -/
inductive Fault where
  deriving DecidableEq, Repr

/-- What the model gives no meaning to (R207), by name. -/
inductive Refusal where
  /-- A command not modelled yet: raised by `exec` alone. Safe: the run ends. -/
  | notModelled (mnemonic : String)
  /-- `ReservedOpcode`: raised by the meanings of the four reserved opcodes (R74, R207). Safe: hardware "may do
  anything with them". -/
  | reservedOpcode
  /-- `ZeroSeed`: raised by SEED with operand 0 (R162, R207). Safe. -/
  | zeroSeed
  /-- `TooLong`: raised by a sequence command whose operand has more than `MAX_CHARS` elements (R41, R207). Safe. -/
  | tooLong
  /-- `ResetInCommand`: raised by `step` where a reset arrives during a command (R232, R207). Safe: hardware may
  leave any state. -/
  | resetInCommand
  /-- `BadProbability`: raised by CORRUPT, LOSS and PROCESS under REF_LFSR where a `P_*` is no whole number of
  hundredths (R157, R207; log entry 8). Safe. -/
  | badProbability
  /-- A sequence command issued without a `SIN` of its type, which is no command of R22 and R73: raised by the
  five sequence commands (log entry 7). Safe: the run ends. -/
  | operandMismatch
  deriving DecidableEq, Repr

/-- The machine right after reset (R32, R231), with the default configuration (R8, R9), before the host has
issued anything. -/
def State.reset : State where
  cfg := Config.default
  src := { lfsr := Config.default.lfsrReset, env := [], drawn := 0 }
  seq := Seq.idle
  result := Result.empty
  sin := none
  host := []

/-- What the next host event leads to: a command to run in a state, or an outcome already settled. -/
inductive Issue where
  | run (i : Instr) (s : State)
  | settled (o : Host.Outcome State Fault Refusal)

/-- An outcome of one step of this machine. -/
abbrev Out := Host.Outcome State Fault Refusal

end Sys2Proof.Machine
end

