-- ==== Sys2Proof/Machine/Operands.lean ====
section
/-! DEFINITION. How positions, data bits and sequences map onto bus words (R10, R60-R63, R129, R43). -/

namespace Sys2Proof.Machine

/-- `c[p] = CW[16-p]`, the bit of a codeword at position `p` in 1..16 (R61). -/
def bitAt (cw : Word) (p : Nat) : Bit := cw.getLsbD (16 - p)

/-- The codeword with the bit at position `p` set to `b` (R61). -/
def setPos (cw : Word) (p : Nat) (b : Bit) : Word :=
  if b then cw ||| onehot p else cw &&& ~~~ onehot p

/-- The i-th data bit of a data word, `D[11-i]`, for `i` in 1..11 (R60). -/
def dataBit (d : DataWord) (i : Nat) : Bit := d.getLsbD (11 - i)

/-- `unpack(D) = [D[10], D[9], ..., D[0]]` (40_bitconv_segment, helper of R100-R106). -/
def unpack (d : DataWord) : List Bit := (List.range 11).map fun j => d.getLsbD (10 - j)

/-- `pack(b[0..10])`, the data word with `D[10-j] = b[j]`. -/
def pack (bs : List Bit) : DataWord :=
  (List.range 11).foldl (fun d j => if bs.getD j false then d ||| (1#11 <<< (10 - j)) else d) 0

/-- The data placement map: data bit `i` occupies position `DP(i)` (R63). -/
def dataPositions : List Nat := [3, 5, 6, 7, 9, 10, 11, 12, 13, 14, 15]

/-- Step 1 of ENCODE: the data bits at their positions, every other position 0 (R120, R63). -/
def place (d : DataWord) : Word :=
  (dataPositions.zip (unpack d)).foldl (fun c pb => setPos c pb.1 pb.2) 0

/-- `extract(c)`: the data bits of a codeword, in the order of their positions (R129). -/
def extract (cw : Word) : DataWord := pack (dataPositions.map (bitAt cw))

/-- A data word in a 16-bit field: zero-extended (R60). -/
def dataToWord (d : DataWord) : Word := d.zeroExtend 16

/-- The loss flag in bit 0 of `RES` (R23, R161). -/
def bitToWord (b : Bit) : Word := (BitVec.ofBool b).zeroExtend 16

end Sys2Proof.Machine
end

