-- ==== Sys2Proof/Machine/Flags.lean ====
section
/-! DEFINITION. The flag-like outputs SYN, OVP, VERDICT, ERRPOS and STATUS, and the parities behind them
(R64-R69, R123-R126). -/

namespace Sys2Proof.Machine

/-- The exclusive-or of the bits of a codeword at the positions of a set (R13). -/
def xorAt (cw : Word) (positions : List Nat) : Bit :=
  positions.foldl (fun b p => b ^^ bitAt cw p) false

/-- The data positions of check 1 (R64). -/
def checkSet1 : List Nat := [3, 5, 7, 9, 11, 13, 15]
/-- The data positions of check 2 (R64). -/
def checkSet2 : List Nat := [3, 6, 7, 10, 11, 14, 15]
/-- The data positions of check 4 (R64). -/
def checkSet4 : List Nat := [5, 6, 7, 12, 13, 14, 15]
/-- The data positions of check 8 (R64). -/
def checkSet8 : List Nat := [9, 10, 11, 12, 13, 14, 15]

/-- Positions 1..15, all that the overall parity bit covers (R62, R120). -/
def positions1to15 : List Nat := [1, 2, 3, 4, 5, 6, 7, 8, 9, 10, 11, 12, 13, 14, 15]

/-- Check `w`: the codeword's own bit at position `w` xor the parity of its data positions (R123). -/
def check (cw : Word) (w : Nat) (dataSet : List Nat) : Bit := bitAt cw w ^^ xorAt cw dataSet

/-- `SYN`: checks 8, 4, 2, 1, most significant first (R65, R123). -/
def syndromeOf (cw : Word) : BitVec 4 :=
  BitVec.ofBool (check cw 8 checkSet8) ++ BitVec.ofBool (check cw 4 checkSet4)
    ++ BitVec.ofBool (check cw 2 checkSet2) ++ BitVec.ofBool (check cw 1 checkSet1)

/-- `OVP`: the exclusive-or of all 16 bits (R66, R124). -/
def overallParity (cw : Word) : Bit := xorAt cw (positions1to15 ++ [16])

/-- The classification table, as an explicit four-way decision (R125). -/
def classify (syn : BitVec 4) (ovp : Bit) : Verdict :=
  if syn = 0 then
    if ovp then .singleExtra else .noError
  else
    if ovp then .singleCorrected else .doubleDetected

/-- The mapper's error position (R69, R126). -/
def errorPosition (v : Verdict) (syn : BitVec 4) : BitVec 5 :=
  match v with
  | .noError => 0
  | .singleExtra => 16
  | .singleCorrected => syn.zeroExtend 5
  | .doubleDetected => 0

/-- The mapper's correction mask; position 16 is never flipped (R126). -/
def correctionMask (v : Verdict) (syn : BitVec 4) : Word :=
  match v with
  | .noError => 0
  | .singleExtra => 0
  | .singleCorrected => onehot syn.toNat
  | .doubleDetected => 0

/-- The verdict of a 16-bit word (R123-R125). -/
def verdictOf (cw : Word) : Verdict := classify (syndromeOf cw) (overallParity cw)

/-- The four diagnostic fields that DECODE and SYNDROME produce (R127, R128). -/
def diagnosis (cw : Word) : Result :=
  { syn := some (syndromeOf cw)
    ovp := some (overallParity cw)
    verdict := some (verdictOf cw)
    errpos := some (errorPosition (verdictOf cw) (syndromeOf cw)) }

/-- The code of a verdict on `VERDICT[1:0]` (R67). -/
def Verdict.code : Verdict → BitVec 2
  | .noError => 0b00
  | .singleExtra => 0b01
  | .singleCorrected => 0b10
  | .doubleDetected => 0b11

/-- The code of a status on `STATUS[1:0]` (R68). -/
def Status.code : Status → BitVec 2
  | .ok => 0b00
  | .malformed => 0b01
  | .loss => 0b10
  | .ded => 0b11

/-- The status an error ends its command with (R200). -/
def BlockError.status : BlockError → Status
  | .simulatedLoss => .loss
  | .doubleErrorDetected => .ded

end Sys2Proof.Machine
end

