-- ==== Sys2Proof/Machine/Random.lean ====
section
/-! DEFINITION. The random source: draws under both readings, the reference LFSR, and the injector's mask
(R150-R158, R163). -/

namespace Sys2Proof.Machine

/-- One step of the 16-bit Galois LFSR with feedback mask 0xB400 (R154). -/
def lfsrStep (s : Word) : Word := if s.getLsbD 0 then (s >>> 1) ^^^ 0xB400#16 else s >>> 1

/-- `n` steps of the LFSR (R154). -/
def lfsrSteps : Nat → Word → Word
  | 0, s => s
  | n + 1, s => lfsrSteps n (lfsrStep s)

/-- What one draw does to `lfsr`: exactly 16 steps, whatever its kind (R155). -/
def lfsrDraw (s : Word) : Word := lfsrSteps 16 s

/-- The probability parameter of a Bit draw (R150). -/
def probOf (c : Config) : BitDraw → Prob
  | .lossd => c.pLoss
  | .eventd => c.pEvent
  | .doubled => c.pDouble

/-- A whole number of hundredths (R157). -/
def Prob.whole (p : Prob) : Bool := 0 < p.den && (100 * p.num) % p.den == 0

/-- Whether R157 gives draws a meaning: under REF_LFSR each `P_*` must be a whole number of hundredths
(R157, R207; log entry 8). -/
def drawsAllowed (c : Config) : Bool :=
  match c.rngMode with
  | .free => true
  | .refLfsr => Prob.whole c.pLoss && Prob.whole c.pEvent && Prob.whole c.pDouble

/-- The value of a Bit draw from `u`: 1 iff `u mod 100 < 100 * P` (R157). -/
def bernoulli (p : Prob) (u : Word) : Bit := (u.toNat % 100) * p.den < 100 * p.num

/-- The value of a `POSD` draw from `u`: `1 + u mod 15` (R157). -/
def posFrom (u : Word) : Nat := 1 + u.toNat % 15

/-- What one act of another instance does to the shared `lfsr` (R54, R155, R162, R231). Under FREE mode a draw
leaves it alone (R152); SEED refuses 0. DESIGN CHOICE (log entry 21): under REF_LFSR a peer's draw is 16 steps also where
some `P_*` is no whole number of hundredths, where R207 refuses draws and the spec says nothing of a peer's. -/
def peerAct (c : Config) (l : Word) : PeerAct → Word
  | .draw => match c.rngMode with
    | .free => l
    | .refLfsr => lfsrDraw l
  | .seed a => if a = 0 then l else a
  | .reset => c.lfsrReset

/-- What the other instances' acts do to the shared `lfsr`, in order; where this instance is the only one, there
are none (R54, R214; log entry 9). -/
def peerActs (c : Config) (l : Word) (acts : List PeerAct) : Word :=
  if c.nInstances ≤ 1 then l else acts.foldl (peerAct c) l

/-- The environment's contribution to the next draw (R152; log entry 3). -/
def Source.next (r : Source) : DrawEnv :=
  match r.env with
  | e :: _ => e
  | [] => Config.freeDraw r.drawn

/-- Taking a draw of any kind: under FREE mode `lfsr` is neither read nor written (R152); under REF_LFSR it
advances by one draw (R155), after whatever the other instances did to it (R54). -/
def Source.advance (c : Config) (r : Source) : Source :=
  { lfsr := match c.rngMode with
      | .free => r.lfsr
      | .refLfsr => lfsrDraw (peerActs c r.lfsr r.next.peers)
    env := r.env.tail
    drawn := r.drawn + 1 }

/-- The value of a Bit draw (R151): the environment's under FREE mode (R152), that of `u`, the advanced `lfsr`,
under REF_LFSR (R155, R157). -/
def Source.bit (c : Config) (k : BitDraw) (r : Source) : Bit :=
  match c.rngMode with
  | .free => r.next.bit
  | .refLfsr => bernoulli (probOf c k) (r.advance c).lfsr

/-- The value of a `POSD` draw, 1..15 (R151). -/
def Source.pos (c : Config) (r : Source) : Nat :=
  match c.rngMode with
  | .free => r.next.pos.val + 1
  | .refLfsr => posFrom (r.advance c).lfsr

/-- The injector's mask and the source after its draws, in the order EVENTD, DOUBLED, POSD, POSD (R158). The two
positions of a double flip are separate draws and may coincide (R163). -/
def injectorMask (c : Config) (r : Source) : Word × Source :=
  let r1 := r.advance c
  let r2 := r1.advance c
  let r3 := r2.advance c
  if r.bit c .eventd then
    if r1.bit c .doubled then
      (onehot (r2.pos c) ^^^ onehot (r3.pos c), r3.advance c)
    else
      (onehot (r2.pos c), r3)
  else
    (0, r1)

end Sys2Proof.Machine
end

