-- ==== Sys2Proof/Machine/Ops.lean ====
section
/-! DEFINITION. What every command shares: reading its sequence operand, completing, raising an error, refusing,
and the reset event (R14, R22-R25, R44, R201, R207, R231). -/

namespace Sys2Proof.Machine

/-- Publish a result record. It replaces the record before, and the operand is not kept (R22, R25, R44, R48). -/
def State.complete (s : State) (r : Result) : State := { s with result := r, sin := none }

/-- Completion without error: STATUS = OK beside the fields produced (R24, R68). -/
def State.completeOk (s : State) (r : Result) : State := s.complete { r with status := some .ok }

/-- `raise`: the command ends with the error's status and no output sequence; fields assigned before (`r`) stay
produced, draws already taken stay taken, nothing else changes (R201, R208). -/
def State.raise (s : State) (e : BlockError) (r : Result) : State :=
  s.complete { r with status := some e.status, sout := none }

/-- The source after the draws of a command (R201: they stay taken). -/
def State.withSrc (s : State) (r : Source) : State := { s with src := r }

/-- The length rule of a sequence operand: more than `MAX_CHARS` elements is refused (R41, R207). -/
def tooLong (c : Config) (n : Nat) : Bool := c.maxChars < n

/-- `StreamIn()` of a command that takes a Text (R44, R73). -/
def State.withText (s : State) (k : List Symbol → Out) : Out :=
  match s.sin with
  | some (.text t) => if tooLong s.cfg t.length then .refused .tooLong else k t
  | some (.bits _) => .refused .operandMismatch
  | some (.blocks _) => .refused .operandMismatch
  | none => .refused .operandMismatch

/-- `StreamIn()` of a command that takes Bits (R44, R73). -/
def State.withBits (s : State) (k : List Bit → Out) : Out :=
  match s.sin with
  | some (.bits b) => if tooLong s.cfg b.length then .refused .tooLong else k b
  | some (.text _) => .refused .operandMismatch
  | some (.blocks _) => .refused .operandMismatch
  | none => .refused .operandMismatch

/-- `StreamIn()` of a command that takes Blocks (R44, R73). -/
def State.withBlocks (s : State) (k : List DataWord → Out) : Out :=
  match s.sin with
  | some (.blocks d) => if tooLong s.cfg d.length then .refused .tooLong else k d
  | some (.text _) => .refused .operandMismatch
  | some (.bits _) => .refused .operandMismatch
  | none => .refused .operandMismatch

/-- A command that draws: refused where R157 gives draws no meaning (R207; log entry 8). -/
def State.withDraws (s : State) (o : Out) : Out :=
  if drawsAllowed s.cfg then o else .refused .badProbability

/-- The reset effect: `lfsr` loads `LFSR_RESET`, `seq` is IDLE and every result field is `none`; the configuration
is unchanged (R231). The inputs still to come stay as they are (log entry 14). -/
def State.resetEffect (s : State) : State :=
  { s with
    src := { s.src with lfsr := s.cfg.lfsrReset }
    seq := Seq.idle
    result := Result.empty
    sin := none }

end Sys2Proof.Machine
end

