-- ==== Sys2Proof/Machine/Channel.lean ====
section
/-! DEFINITION. The ChannelSimulator: CORRUPT, FLIP, FLIPPOS, LOSS and SEED (R81, R158-R162). -/

namespace Sys2Proof.Machine

/-- Forced flips by a mask, shared by FLIP and FLIPPOS (R160, R81). -/
def forcedFlip (cw m : Word) (s : State) : Out :=
  .next (s.completeOk { res := some (cw ^^^ m), emask := some m })

/-- CORRUPT (R158). -/
def execCorrupt (cw : Word) (s : State) : Out :=
  s.withDraws (.next ((s.withSrc (injectorMask s.cfg s.src).2).completeOk
    { res := some (cw ^^^ (injectorMask s.cfg s.src).1), emask := some (injectorMask s.cfg s.src).1 }))

/-- FLIP (R160). -/
def execFlip (cw m : Word) (s : State) : Out := forcedFlip cw m s

/-- FLIPPOS: the one FLIP it expands to (R81). -/
def execFlippos (cw : Word) (p : Nat) (q : Option Nat) (s : State) : Out := forcedFlip cw (flipposMask p q) s

/-- LOSS (R161): reports the draw and raises nothing. -/
def execLoss (s : State) : Out :=
  s.withDraws (.next ((s.withSrc (s.src.advance s.cfg)).completeOk
    { res := some (bitToWord (s.src.bit s.cfg .lossd)) }))

/-- SEED (R162): 0 is refused, because a zero state would lock the LFSR at 0. -/
def execSeed (a : Word) (s : State) : Out :=
  if a = 0 then .refused .zeroSeed
  else .next ((s.withSrc { s.src with lfsr := a }).completeOk {})

end Sys2Proof.Machine
end

