-- ==== Sys2Proof/Machine/Codec.lean ====
section
/-! DEFINITION. The HammingCodec: ENCODE, SYNDROME and DECODE (R120-R129). -/

namespace Sys2Proof.Machine

/-- Steps 1 and 2 of ENCODE: the data placed, and parity bits 1, 2, 4, 8 each over its own data positions, which no
other parity bit occupies (R120, R64). -/
def withChecks (d : DataWord) : Word :=
  let c := place d
  setPos (setPos (setPos (setPos c 1 (xorAt c checkSet1)) 2 (xorAt c checkSet2)) 4 (xorAt c checkSet4))
    8 (xorAt c checkSet8)

/-- The encoder: step 3 adds the overall parity bit over positions 1..15, the four parity bits among them (R120). -/
def encodeBlock (d : DataWord) : Word :=
  let c := withChecks d
  setPos c 16 (xorAt c positions1to15)

/-- The decoder's data: none on a double error, otherwise the data bits of the corrected word (R128, R129). -/
def decodeBlock (cw : Word) : Option DataWord :=
  match verdictOf cw with
  | .doubleDetected => none
  | .noError => some (extract cw)
  | .singleExtra => some (extract cw)
  | .singleCorrected => some (extract (cw ^^^ correctionMask .singleCorrected (syndromeOf cw)))

/-- ENCODE (R120). -/
def execEncode (d : DataWord) (s : State) : Out :=
  .next (s.completeOk { res := some (encodeBlock d) })

/-- DECODE (R128): the four diagnostic fields in every case; on a double error it raises DoubleErrorDetected and
gives no RES. -/
def execDecode (cw : Word) (s : State) : Out :=
  .next (match decodeBlock cw with
    | none => s.raise .doubleErrorDetected (diagnosis cw)
    | some d => s.completeOk { diagnosis cw with res := some (dataToWord d) })

/-- SYNDROME (R127): the diagnostic fields alone, with STATUS = OK whatever the verdict. -/
def execSyndrome (cw : Word) (s : State) : Out :=
  .next (s.completeOk (diagnosis cw))

end Sys2Proof.Machine
end

