-- ==== Sys2Proof/Machine/Convert.lean ====
section
/-! DEFINITION. The BitConverter: TOBITS and TOTEXT (R70, R100, R101). -/

namespace Sys2Proof.Machine

/-- The character `'1'`, U+0031 (R70). -/
def charOne : Symbol := 0x00000031

/-- The character `'0'`, U+0030 (R70). -/
def charZero : Symbol := 0x00000030

/-- Only U+0031 is 1, every other character is 0 (R100). -/
def symbolToBit (c : Symbol) : Bit := c == charOne

/-- `'1'` for 1 and `'0'` for 0 (R101). -/
def bitToSymbol (b : Bit) : Symbol := if b then charOne else charZero

/-- The bits of a text, one per character, in order (R100, R42). -/
def textToBits (t : List Symbol) : List Bit := t.map symbolToBit

/-- The text of a bit sequence, one character per bit, in order (R101, R42). -/
def bitsToText (bs : List Bit) : List Symbol := bs.map bitToSymbol

/-- TOBITS (R100). -/
def execTobits (s : State) : Out :=
  s.withText fun t => .next (s.completeOk { sout := some (.bits (textToBits t)) })

/-- TOTEXT (R101). -/
def execTotext (s : State) : Out :=
  s.withBits fun b => .next (s.completeOk { sout := some (.text (bitsToText b)) })

end Sys2Proof.Machine
end

