-- ==== Sys2Proof/Machine/Segment.lean ====
section
/-! DEFINITION. The Segmenter: SPLIT and REASSEMBLE (R43, R47, R103-R105). -/

namespace Sys2Proof.Machine

/-- `zeros(n)`: n zero Bits (R12). -/
def zeros (n : Nat) : List Bit := List.replicate n false

/-- `ceil(n / 11)`, the number of blocks of `n` bits (R12, R104). -/
def blockCount (n : Nat) : Nat := (n + 10) / 11

/-- Block `b` of a bit sequence: bits `11b ..`, at most 11 of them, zero-padded on the right (R103). -/
def blockOf (bs : List Bit) (b : Nat) : DataWord :=
  let chunk := (bs.drop (11 * b)).take 11
  pack (chunk ++ zeros (11 - chunk.length))

/-- SPLIT's blocks, in strides of 11, earliest first (R103). -/
def splitBits (bs : List Bit) : List DataWord := (List.range (blockCount bs.length)).map (blockOf bs)

/-- REASSEMBLE's bits: the blocks' bits in order, padding kept (R105). -/
def joinBlocks (ds : List DataWord) : List Bit := ds.flatMap unpack

/-- SPLIT (R103). -/
def execSplit (s : State) : Out :=
  s.withBits fun b => .next (s.completeOk { sout := some (.blocks (splitBits b)) })

/-- REASSEMBLE (R105). -/
def execReassemble (s : State) : Out :=
  s.withBlocks fun d => .next (s.completeOk { sout := some (.bits (joinBlocks d)) })

end Sys2Proof.Machine
end

