-- ==== Sys2Proof/Machine/Pipeline.lean ====
section
/-! DEFINITION. The RelayPipeline: PROCESS as one command, and its sequencer in small steps (R180-R188, R29, R30). -/

namespace Sys2Proof.Machine

/-- One block through ENCODE, CORRUPT and DECODE, inside the block: the decoded data, none on a double error, and
the source after the block's draws (R181). -/
def processBlock (c : Config) (d : DataWord) (r : Source) : Option DataWord × Source :=
  (decodeBlock (encodeBlock d ^^^ (injectorMask c r).1), (injectorMask c r).2)

/-- The block loop of R181, in index order: the first double error ends it, and later blocks take no draws (R183). -/
def processBlocks (c : Config) : List DataWord → List DataWord → Source → Option (List DataWord) × Source
  | [], acc, r => (some acc, r)
  | d :: ds, acc, r =>
    match (processBlock c d r).1 with
    | none => (none, (processBlock c d r).2)
    | some x => processBlocks c ds (acc ++ [x]) (processBlock c d r).2

/-- The output text of decoded blocks: reassembled, cut to the payload's length under TRUNCATE, converted
(R181, R184). -/
def outputText (c : Config) (bits : List Bit) (acc : List DataWord) : List Symbol :=
  match c.padMode with
  | .keepPadding => bitsToText (joinBlocks acc)
  | .truncate => bitsToText ((joinBlocks acc).take bits.length)

/-- The pseudocode of R181 on the payload `t`. The order of draws is that of R182. -/
def processText (t : List Symbol) (s : State) : State :=
  let r1 := s.src.advance s.cfg
  if s.src.bit s.cfg .lossd then
    (s.withSrc r1).raise .simulatedLoss {}
  else
    match processBlocks s.cfg (splitBits (textToBits t)) [] r1 with
    | (none, r2) => (s.withSrc r2).raise .doubleErrorDetected {}
    | (some acc, r2) =>
      (s.withSrc r2).completeOk { sout := some (.text (outputText s.cfg (textToBits t) acc)) }

/-- PROCESS, as the atomic command a host sees (R181, R51). -/
def execProcess (s : State) : Out :=
  s.withText fun t => s.withDraws (.next (processText t s))

/-- The sequencer's first step, IDLE to LOSSCHK: PROCESS issued on the payload `t` (R188). The operand is not kept
(R22). -/
def seqIssue (t : List Symbol) (s : State) : State :=
  { s with seq := ⟨.losschk, textToBits t, [], 0, []⟩, sin := none }

/-- Publish at FINISH: STATUS, and SOUT if it is OK; `seq` is cleared (R188). -/
def seqPublish (st : Status) (s : State) : State :=
  { s with
    result := match st with
      | .ok => { status := some .ok, sout := some (.text (outputText s.cfg s.seq.bits s.seq.acc)) }
      | .malformed => { status := some .malformed }
      | .loss => { status := some .loss }
      | .ded => { status := some .ded }
    seq := Seq.idle
    sin := none }

/-- One step of the sequencer from a phase other than IDLE (R188); in IDLE nothing moves (R29). The output text is
computed at publication, from `bits` and `acc`, which the step before leaves as they are (log entry 15). -/
def seqStep (s : State) : State :=
  match s.seq.phase with
  | .idle => s
  | .losschk =>
    if s.src.bit s.cfg .lossd then
      { s with src := s.src.advance s.cfg, seq := { s.seq with phase := .finish .loss } }
    else
      { s with
        src := s.src.advance s.cfg
        seq := { s.seq with phase := .block, blocks := splitBits s.seq.bits, k := 0, acc := [] } }
  | .block =>
    match s.seq.blocks.drop s.seq.k with
    | [] => { s with seq := { s.seq with phase := .finish .ok } }
    | d :: _ =>
      match processBlock s.cfg d s.src with
      | (none, r) => { s with src := r, seq := { s.seq with phase := .finish .ded } }
      | (some x, r) => { s with src := r, seq := { s.seq with k := s.seq.k + 1, acc := s.seq.acc ++ [x] } }
  | .finish st => seqPublish st s

/-- The sequencer run for at most `n` steps, stopping in IDLE. -/
def seqRun : Nat → State → State
  | 0, s => s
  | n + 1, s =>
    match s.seq.phase with
    | .idle => s
    | .losschk => seqRun n (seqStep s)
    | .block => seqRun n (seqStep s)
    | .finish _ => seqRun n (seqStep s)

end Sys2Proof.Machine
end

