-- ==== Sys2Proof/Machine/Reserved.lean ====
section
/-! DEFINITION. The reserved opcodes 0x0, 0xD, 0xE, 0xF: refused by name (R74, R207). -/

namespace Sys2Proof.Machine

/-- `refuse(ReservedOpcode)` (R74, R207). -/
def refuseReserved (_ : State) : Out := .refused .reservedOpcode

/-- Opcode 0x0 (R74). -/
def execReserved0 (s : State) : Out := refuseReserved s

/-- Opcode 0xD (R74). -/
def execReservedD (s : State) : Out := refuseReserved s

/-- Opcode 0xE (R74). -/
def execReservedE (s : State) : Out := refuseReserved s

/-- Opcode 0xF (R74). -/
def execReservedF (s : State) : Out := refuseReserved s

end Sys2Proof.Machine
end

