-- ==== Sys2Proof/Machine/Dispatch.lean ====
section
/-! DEFINITION. One arm per command (R73, R81). -/

namespace Sys2Proof.Machine

def exec (i : Instr) (s : State) : Host.Outcome State Fault Refusal :=
  match i with
  | .tobits => Sys2Proof.Machine.execTobits s
  | .totext => Sys2Proof.Machine.execTotext s
  | .split => Sys2Proof.Machine.execSplit s
  | .reassemble => Sys2Proof.Machine.execReassemble s
  | .encode d => Sys2Proof.Machine.execEncode d s
  | .decode cw => Sys2Proof.Machine.execDecode cw s
  | .syndrome cw => Sys2Proof.Machine.execSyndrome cw s
  | .corrupt cw => Sys2Proof.Machine.execCorrupt cw s
  | .flip cw m => Sys2Proof.Machine.execFlip cw m s
  | .loss => Sys2Proof.Machine.execLoss s
  | .process => Sys2Proof.Machine.execProcess s
  | .seed a => Sys2Proof.Machine.execSeed a s
  | .reserved0 => Sys2Proof.Machine.execReserved0 s
  | .reservedD => Sys2Proof.Machine.execReservedD s
  | .reservedE => Sys2Proof.Machine.execReservedE s
  | .reservedF => Sys2Proof.Machine.execReservedF s
  | .flippos cw p q => Sys2Proof.Machine.execFlippos cw p q s

end Sys2Proof.Machine
end

