-- ==== Sys2Proof/Machine/Events.lean ====
section
/-! DEFINITION. What the next host event leads to: issuing a command, reset, a peer's act, or the sequencer's next
step (R22, R51, R188, R214, R230-R232). -/

namespace Sys2Proof.Machine

/-- The type of `SIN` a command takes, as its empty sequence; none for a command without one (R41, R73). -/
def emptySin : Instr → Option SeqVal
  | .tobits => some (.text [])
  | .totext => some (.bits [])
  | .split => some (.bits [])
  | .reassemble => some (.blocks [])
  | .encode _ => none
  | .decode _ => none
  | .syndrome _ => none
  | .corrupt _ => none
  | .flip _ _ => none
  | .loss => none
  | .process => some (.text [])
  | .seed _ => none
  | .reserved0 => none
  | .reservedD => none
  | .reservedE => none
  | .reservedF => none
  | .flippos _ _ _ => none

/-- The state in which an issued command runs: its operand on `SIN`, the event taken from the queue (R22). -/
def State.accept (s : State) (sin : Option SeqVal) (rest : List HostEvent) : State :=
  { s with sin := sin, host := rest }

/-- Another instance acts on the shared source (R54, R214). -/
def State.peerEvent (s : State) (act : PeerAct) (rest : List HostEvent) : State :=
  { s with src := { s.src with lfsr := peerActs s.cfg s.src.lfsr [act] }, host := rest }

/-- The next event of an instance in IDLE (R51, R216, R230-R232). With no event pending nothing happens: "No event
wakes it except the next command". -/
def idleEvent (s : State) : Issue :=
  match s.host with
  | [] => .settled (.next s)
  | .command cmd sin :: rest => .run (decodeWord cmd) (s.accept sin rest)
  | .reset :: rest => .settled (.next { s.resetEffect with host := rest })
  | .resetDuring _ _ :: _ => .settled (.refused .resetInCommand)
  | .peer act :: rest => .settled (.next (s.peerEvent act rest))

/-- The next event of an instance whose sequencer is out of IDLE: the command in flight takes its next small step
(R188), another instance may act first (R54), a reset is refused (R232), and a further command waits (R234). No
run of atomic commands gets here (R51; log entry 5). -/
def busyEvent (s : State) : Issue :=
  match s.host with
  | .reset :: _ => .settled (.refused .resetInCommand)
  | .peer act :: rest => .settled (.next (s.peerEvent act rest))
  | .command _ _ :: _ => .settled (s.withDraws (.next (seqStep s)))
  | .resetDuring _ _ :: _ => .settled (s.withDraws (.next (seqStep s)))
  | [] => .settled (s.withDraws (.next (seqStep s)))

/-- What happens next to the instance. -/
def nextEvent (s : State) : Issue :=
  match s.seq.phase with
  | .idle => idleEvent s
  | .losschk => busyEvent s
  | .block => busyEvent s
  | .finish _ => busyEvent s

/-- The state with a command word as the very next host event: the instance in IDLE, the word with its upper bits 0,
and the empty sequence where the command takes one (log entry 4). -/
def State.withCommand (s : State) (w : CmdWord) : State :=
  { s with seq := Seq.idle, host := .command w (emptySin (decodeWord w)) :: s.host }

end Sys2Proof.Machine
end

