-- ==== Sys2Proof/Machine/Step.lean ====
section
/-! DEFINITION. One step of the machine: the next host event, a command running to completion (R51). -/

namespace Sys2Proof.Machine

/-- One step: a command is decoded and executed whole (R48, R51); any other event is settled by itself. -/
def step (s : State) : Host.Outcome State Fault Refusal :=
  match nextEvent s with
  | .run i s' => exec i s'
  | .settled o => o

/-- `s` with the command word in the low `nbits` bits of `w` as the next thing the host issues, so that the very
next step runs it (log entry 4). -/
def State.withFetchWord (s : State) (nbits w : Nat) : State :=
  s.withCommand (BitVec.ofNat 36 (w % 2 ^ nbits))

end Sys2Proof.Machine
end

