-- ==== Sys2Proof/Machine/Assembler.lean ====
section
/-! DEFINITION. The assembler of R79-R81: a source line to a command word and its sequence operand. -/

namespace Sys2Proof.Machine

/-- Why a line does not assemble. -/
inductive AsmError where
  /-- A text operand without its closing quote (R79). -/
  | openText
  /-- No mnemonic of R80 or R81. -/
  | unknownMnemonic
  /-- Operands that are not those of R80, or a literal outside R79. -/
  | badOperand
  /-- "A position outside 1..16 is an assembly error" (R81). -/
  | badPosition
  deriving DecidableEq, Repr

/-- The pieces of a line: words, quoted texts and punctuation (R79, R80). -/
inductive Token where
  | word (cs : List Char)
  | text (cs : List Char)
  | comma
  | opening
  | closing
  deriving DecidableEq, Repr

/-- The word read so far (in reverse), if any, before the tokens that follow. -/
def flushWord (cur : List Char) (ts : List Token) : List Token :=
  if cur.isEmpty then ts else .word cur.reverse :: ts

/-- The tokens of a line. The first argument holds the quoted text read so far (in reverse) while inside quotes, the
second the word read so far. `;` outside quotes starts a comment (R80). -/
def tokens : Option (List Char) → List Char → List Char → Except AsmError (List Token)
  | none, cur, [] => .ok (flushWord cur [])
  | some _, _, [] => .error .openText
  | some txt, cur, c :: rest =>
    if c = '"' then (tokens none cur rest).map (.text txt.reverse :: ·) else tokens (some (c :: txt)) cur rest
  | none, cur, c :: rest =>
    if c = ';' then .ok (flushWord cur [])
    else if c = '"' then (tokens (some []) [] rest).map (flushWord cur)
    else if c = ' ' then (tokens none [] rest).map (flushWord cur)
    else if c = ',' then (tokens none [] rest).map fun ts => flushWord cur (.comma :: ts)
    else if c = '[' then (tokens none [] rest).map fun ts => flushWord cur (.opening :: ts)
    else if c = ']' then (tokens none [] rest).map fun ts => flushWord cur (.closing :: ts)
    else tokens none (c :: cur) rest

/-- The value of a digit below `base`. -/
def digitVal (base : Nat) (c : Char) : Option Nat :=
  let n := c.toNat
  let v :=
    if 48 ≤ n && n ≤ 57 then some (n - 48)
    else if 97 ≤ n && n ≤ 102 then some (n - 87)
    else if 65 ≤ n && n ≤ 70 then some (n - 55)
    else none
  v.filter (· < base)

/-- The value of a nonempty numeral. -/
def numeral (base : Nat) (ds : List Char) : Option Nat :=
  if ds.isEmpty then none
  else ds.foldlM (fun n c => (digitVal base c).map (base * n + ·)) 0

/-- A word literal of `width` bits: `0x` and up to `hexDigits` hex digits, or `0b` and exactly `width` binary digits,
leftmost bit first (R79). -/
def wordLiteral (width hexDigits : Nat) : List Char → Option (BitVec width)
  | '0' :: 'x' :: ds =>
    if ds.length ≤ hexDigits then ((numeral 16 ds).filter (· < 2 ^ width)).map (BitVec.ofNat width) else none
  | '0' :: 'b' :: ds => if ds.length = width then (numeral 2 ds).map (BitVec.ofNat width) else none
  | _ => none

/-- A data word literal (R79). -/
def dataLiteral (w : List Char) : Option DataWord := wordLiteral 11 3 w

/-- A codeword or mask literal (R79). -/
def codeLiteral (w : List Char) : Option Word := wordLiteral 16 4 w

/-- A seed: the form of a codeword literal, or a decimal number, as in `SEED 1` of program P6 (log entry 12). -/
def seedLiteral (w : List Char) : Option Word :=
  match codeLiteral w with
  | some a => some a
  | none => ((numeral 10 w).filter (· < 65536)).map (BitVec.ofNat 16)

/-- A bit of a bits operand (R79). -/
def bitLiteral (w : List Char) : Option Bit :=
  if w = ['0'] then some false else if w = ['1'] then some true else none

/-- The items of a bracketed list after its opening bracket: words with commas between (R79). -/
def listItems : List Token → Option (List (List Char))
  | [.closing] => some []
  | [.word w, .closing] => some [w]
  | .word w :: .comma :: rest => (listItems rest).bind fun ws => if ws.isEmpty then none else some (w :: ws)
  | _ => none

/-- A bracketed list of literals (R79). -/
def listLiteral {α : Type} (item : List Char → Option α) : List Token → Option (List α)
  | .opening :: rest => (listItems rest).bind fun ws => ws.mapM item
  | _ => none

/-- The symbols of a quoted text, one per character (R79, R70). -/
def textSymbols (cs : List Char) : List Symbol := cs.map fun c => BitVec.ofNat 32 c.toNat

/-- A command with its sequence operand. -/
abbrev Issued := Instr × Option SeqVal

/-- An operand that must be there. -/
def need {α : Type} (v : Option α) (f : α → Issued) : Except AsmError Issued :=
  match v with
  | some x => .ok (f x)
  | none => .error .badOperand

/-- The FLIPPOS forms (R81). -/
def flipposLine (cw : Option Word) (p : Option Nat) (q : Option (Option Nat)) : Except AsmError Issued :=
  match cw, p, q with
  | some cw, some p, none =>
    if legalPosition p then .ok (.flippos cw p none, none) else .error .badPosition
  | some cw, some p, some (some q) =>
    if legalPosition p && legalPosition q then .ok (.flippos cw p (some q), none) else .error .badPosition
  | _, _, _ => .error .badOperand

/-- The command of a mnemonic and its operands (R80, R81). -/
def command (m : List Char) (ops : List Token) : Except AsmError Issued :=
  if m = "TOBITS".toList then match ops with
    | [.text t] => .ok (.tobits, some (.text (textSymbols t)))
    | _ => .error .badOperand
  else if m = "TOTEXT".toList then need (listLiteral bitLiteral ops) fun b => (.totext, some (.bits b))
  else if m = "SPLIT".toList then need (listLiteral bitLiteral ops) fun b => (.split, some (.bits b))
  else if m = "REASSEMBLE".toList then need (listLiteral dataLiteral ops) fun d => (.reassemble, some (.blocks d))
  else if m = "ENCODE".toList then match ops with
    | [.word w] => need (dataLiteral w) fun d => (.encode d, none)
    | _ => .error .badOperand
  else if m = "DECODE".toList then match ops with
    | [.word w] => need (codeLiteral w) fun c => (.decode c, none)
    | _ => .error .badOperand
  else if m = "SYNDROME".toList then match ops with
    | [.word w] => need (codeLiteral w) fun c => (.syndrome c, none)
    | _ => .error .badOperand
  else if m = "CORRUPT".toList then match ops with
    | [.word w] => need (codeLiteral w) fun c => (.corrupt c, none)
    | _ => .error .badOperand
  else if m = "FLIP".toList then match ops with
    | [.word w, .comma, .word v] =>
      match codeLiteral w with
      | some c => need (codeLiteral v) fun k => (.flip c k, none)
      | none => .error .badOperand
    | _ => .error .badOperand
  else if m = "LOSS".toList then match ops with
    | [] => .ok (.loss, none)
    | _ => .error .badOperand
  else if m = "PROCESS".toList then match ops with
    | [.text t] => .ok (.process, some (.text (textSymbols t)))
    | _ => .error .badOperand
  else if m = "SEED".toList then match ops with
    | [.word w] => need (seedLiteral w) fun a => (.seed a, none)
    | _ => .error .badOperand
  else if m = "FLIPPOS".toList then match ops with
    | [.word w, .comma, .word p] => flipposLine (codeLiteral w) (numeral 10 p) none
    | [.word w, .comma, .word p, .comma, .word q] =>
      flipposLine (codeLiteral w) (numeral 10 p) (some (numeral 10 q))
    | _ => .error .badOperand
  else .error .unknownMnemonic

/-- One source line: nothing for a blank line or a comment, otherwise the host event that issues the command, its
word being `CMD = OP, A, B` with ignored bits 0 (R80). -/
def assembleLine (line : List Char) : Except AsmError (Option HostEvent) :=
  match tokens none [] line with
  | .error e => .error e
  | .ok [] => .ok none
  | .ok (.word m :: ops) => (command m ops).map fun c => some (.command (encode c.1) c.2)
  | .ok _ => .error .unknownMnemonic

/-- A program, one command per line (R80): the events that issue it, in order. -/
def assemble (lines : List (List Char)) : Except AsmError (List HostEvent) :=
  (lines.mapM assembleLine).map fun es => es.filterMap id

end Sys2Proof.Machine
end

