-- ==== Sys2Proof/Safety.lean ====
section
/-! DEFINITION. What a run shows, when a command is accepted, and the machine's invariant (R24, R28, R29, R69, R207,
R237, R238). -/

namespace Sys2Proof.Machine

/-- Whether the next step publishes a result record: it issues a command, or is the sequencer's FINISH step
(R23, R188). -/
def State.publishes (s : State) : Bool :=
  match s.seq.phase, s.host with
  | .idle, .command _ _ :: _ => true
  | .idle, _ => false
  | .finish _, .peer _ :: _ => false
  | .finish _, _ => true
  | .losschk, _ => false
  | .block, _ => false

/-- The observation of a run of at most `n` steps: the result records in order and the final `lfsr` (R238). Nothing
is observed of a run with a refusal: "anything about a command that was refused" is unsaid. -/
def observe : Nat → State → Option (List Result × Word)
  | 0, s => some ([], s.lfsr)
  | n + 1, s =>
    match step s with
    | .next t => (observe n t).map fun o => (if s.publishes then t.result :: o.1 else o.1, o.2)
    | .fault _ => none
    | .refused _ => none

/-- The commands that take draws (R49). -/
def takesDraws : Instr → Bool
  | .tobits => false
  | .totext => false
  | .split => false
  | .reassemble => false
  | .encode _ => false
  | .decode _ => false
  | .syndrome _ => false
  | .corrupt _ => true
  | .flip _ _ => false
  | .loss => true
  | .process => true
  | .seed _ => false
  | .reserved0 => false
  | .reservedD => false
  | .reservedE => false
  | .reservedF => false
  | .flippos _ _ _ => false

/-- A command has the sequence operand of its type, of at most `MAX_CHARS` elements (R41, R73). -/
def sinFits (c : Config) (i : Instr) (sin : Option SeqVal) : Bool :=
  match emptySin i, sin with
  | none, _ => true
  | some (.text _), some (.text t) => t.length ≤ c.maxChars
  | some (.bits _), some (.bits b) => b.length ≤ c.maxChars
  | some (.blocks _), some (.blocks d) => d.length ≤ c.maxChars
  | some _, _ => false

/-- No refusal of R207 applies to the command in this state. -/
def accepted (i : Instr) (s : State) : Bool :=
  i.wf && sinFits s.cfg i s.sin && (!takesDraws i || drawsAllowed s.cfg)

/-- The sequencer is coherent (R29, R30, R188): outside BLOCK and FINISH nothing is held but the payload's bits, in
BLOCK `k` is at most the number of blocks, and what has been decoded so far is what was encoded. -/
def Seq.wf (q : Seq) : Bool :=
  match q.phase with
  | .idle => q == Seq.idle
  | .losschk => q.blocks == [] && q.k == 0 && q.acc == []
  | .block => q.blocks == splitBits q.bits && decide (q.k ≤ q.blocks.length) && q.acc == q.blocks.take q.k
  | .finish .ok => q.blocks == splitBits q.bits && q.k == q.blocks.length && q.acc == q.blocks
  | .finish .malformed => false
  | .finish .loss => q.blocks == [] && q.k == 0 && q.acc == []
  | .finish .ded => q.blocks == splitBits q.bits && decide (q.k < q.blocks.length) && q.acc == q.blocks.take q.k

/-- A result record as the rules allow it: never MALFORMED (R204), no data and no output on an error (R44, R128), an
error position of at most 16 (R69), and a verdict and position that are those of the syndrome and parity beside
them (R125, R126). -/
def Result.wf (r : Result) : Bool :=
  r.status != some .malformed
    && (r.status == none || r.status == some .ok || (r.res == none && r.sout == none))
    && (match r.errpos with
        | none => true
        | some e => e ≤ 16)
    && (match r.syn, r.ovp with
        | some y, some o => r.verdict == some (classify y o) && r.errpos == some (errorPosition (classify y o) y)
        | _, _ => true)

/-- The invariant of the machine: a legal configuration (R8, R9), `lfsr` never 0 (R28), a coherent sequencer and a
legal result record. -/
def State.Inv (s : State) : Prop :=
  s.cfg.wf = true ∧ s.lfsr ≠ 0 ∧ s.seq.wf = true ∧ s.result.wf = true

end Sys2Proof.Machine
end

