-- ==== Sys2Proof/Certificates/Slice0/Obligations.lean ====
section
/-! DEFINITION. The statements for the provers. Each names the rule of spec/ it formalises; a clause that rests on a
choice of the model names its log entry. -/

namespace Sys2Proof.Slice0

open Sys2Proof.Machine

/-- `par(x)`: the exclusive-or of the bits of `x` (R121). -/
def parity {n : Nat} (x : BitVec n) : Bool := (List.range n).foldl (fun b j => b ^^ x.getLsbD j) false

/-- The number of 1 bits of a 16-bit word. -/
def weight (x : Word) : Nat := ((List.range 16).filter fun j => x.getLsbD j).length

/-- The number of positions in which two words differ. -/
def distance (x y : Word) : Nat := weight (x ^^^ y)

/-- `SYN` in bus terms: `s_w = par(CW AND C_w)` (R123, R64). -/
def busSyndrome (cw : Word) : BitVec 4 :=
  BitVec.ofBool (parity (cw &&& 0x01FE#16)) ++ BitVec.ofBool (parity (cw &&& 0x1E1E#16))
    ++ BitVec.ofBool (parity (cw &&& 0x6666#16)) ++ BitVec.ofBool (parity (cw &&& 0xAAAA#16))

/-- The four diagnostic fields, by the tables of R125 and R126 over the bus form of the syndrome. -/
def tableDiagnosis (cw : Word) : Result :=
  { syn := some (busSyndrome cw)
    ovp := some (parity cw)
    verdict := some (match decide (busSyndrome cw = 0), parity cw with
      | true, false => .noError
      | true, true => .singleExtra
      | false, true => .singleCorrected
      | false, false => .doubleDetected)
    errpos := some (match decide (busSyndrome cw = 0), parity cw with
      | true, false => 0
      | true, true => 16
      | false, true => (busSyndrome cw).zeroExtend 5
      | false, false => 0) }

/-- The state in which a command has completed: its result record published, the random source as given, the operand
not kept, and everything else (configuration, sequencer, the host's events) unchanged. -/
def Completed (s : State) (src : Source) (r : Result) : State :=
  { s with src := src, result := r, sin := none }

/-- The random source after one draw under FREE mode: `lfsr` as it was (R152; the two other fields are the model's
own, log entry 3). -/
def afterFreeDraw (r : Source) : Source := { r with env := r.env.tail, drawn := r.drawn + 1 }

/-- The text a payload becomes: `'1'` stays, every other character is `'0'` (R102, R186). -/
def degraded (t : List Symbol) : List Symbol := t.map fun c => if c = 0x31 then 0x31 else 0x30

/-- A sequence command on operand `v` completes with STATUS OK and the output `out`. -/
def Yields (i : Instr) (s : State) (v out : SeqVal) : Prop :=
  ∃ t, exec i { s with sin := some v } = .next t ∧ t.result.status = some .ok ∧ t.result.sout = some out

/-- The commands ENCODE, CORRUPT and DECODE one after the other: from the data `d` in state `s` to the state `t` that
DECODE leaves. -/
def BlockRun (d : DataWord) (s t : State) : Prop :=
  ∃ s1 cw s2 cw2, exec (.encode d) s = .next s1 ∧ s1.result.res = some cw ∧
    exec (.corrupt cw) s1 = .next s2 ∧ s2.result.res = some cw2 ∧ exec (.decode cw2) s2 = .next t

/-- The blocks through `BlockRun` in order, from `s` to `t`: the decoded data of all of them, or none where one ends
with DED, and then no block after it is run. -/
def BlocksRun : List DataWord → State → Option (List DataWord) → State → Prop
  | [], s, data, t => data = some [] ∧ t = s
  | d :: ds, s, data, t => ∃ u, BlockRun d s u ∧
    (u.result.status = some .ded ∧ data = none ∧ t = u ∨
      u.result.status = some .ok ∧ ∃ x more, u.result.res = some (x.zeroExtend 16) ∧ BlocksRun ds u more t ∧
        data = more.map (x :: ·))

/-- The fields of a result record that are produced, in the order of R24's columns. -/
def producedFields (r : Result) : List Bool :=
  [r.res.isSome, r.syn.isSome, r.ovp.isSome, r.verdict.isSome, r.errpos.isSome, r.emask.isSome, r.sout.isSome]

/-- R24's row of a command for a STATUS: the fields produced, none where the table does not list that STATUS for the
command. -/
def tableFields : Instr → Status → Option (List Bool)
  | .tobits, .ok => some [false, false, false, false, false, false, true]
  | .totext, .ok => some [false, false, false, false, false, false, true]
  | .split, .ok => some [false, false, false, false, false, false, true]
  | .reassemble, .ok => some [false, false, false, false, false, false, true]
  | .encode _, .ok => some [true, false, false, false, false, false, false]
  | .decode _, .ok => some [true, true, true, true, true, false, false]
  | .decode _, .ded => some [false, true, true, true, true, false, false]
  | .syndrome _, .ok => some [false, true, true, true, true, false, false]
  | .corrupt _, .ok => some [true, false, false, false, false, true, false]
  | .flip _ _, .ok => some [true, false, false, false, false, true, false]
  | .flippos _ _ _, .ok => some [true, false, false, false, false, true, false]
  | .loss, .ok => some [true, false, false, false, false, false, false]
  | .process, .ok => some [false, false, false, false, false, false, true]
  | .process, .loss => some [false, false, false, false, false, false, false]
  | .process, .ded => some [false, false, false, false, false, false, false]
  | .seed _, .ok => some [false, false, false, false, false, false, false]
  | _, _ => none

/-- The output sequence of a command has the type of R73 and R24. -/
def soutTyped (i : Instr) (out : Option SeqVal) : Prop :=
  match i, out with
  | .tobits, some (.bits _) => True
  | .totext, some (.text _) => True
  | .split, some (.blocks _) => True
  | .reassemble, some (.bits _) => True
  | .process, some (.text _) => True
  | _, none => True
  | _, some _ => False

/-- The operand of a command has the type of R73. -/
def sinTyped (i : Instr) (sin : Option SeqVal) : Prop :=
  match emptySin i, sin with
  | some (.text _), some (.text _) => True
  | some (.bits _), some (.bits _) => True
  | some (.blocks _), some (.blocks _) => True
  | none, none => True
  | _, _ => False

/-- A reserved opcode (R74). -/
def isReserved : Instr → Bool
  | .reserved0 => true
  | .reservedD => true
  | .reservedE => true
  | .reservedF => true
  | _ => false

/-- SEED (R162). -/
def isSeed : Instr → Bool
  | .seed _ => true
  | _ => false

/-- The same instance with no other instance on the platform: `N_INSTANCES = 1` and nothing done to its source. -/
def alone (s : State) : State :=
  { s with
    cfg := { s.cfg with nInstances := 1 }
    src := { s.src with env := s.src.env.map fun e => { e with peers := [] } } }

end Sys2Proof.Slice0

open Sys2Proof Sys2Proof.Machine Sys2Proof.Slice0

/-! Reset and events. -/

/-- R32, R231: the machine right after reset, and what the reset event does in IDLE. The configuration is unchanged;
the default of `LFSR_RESET` is 0xACE1. -/
def Obligations.ResetLoadsTheListedValues : Prop :=
  (State.reset.lfsr = 0xACE1 ∧ State.reset.cfg.lfsrReset = 0xACE1 ∧ State.reset.seq = ⟨.idle, [], [], 0, []⟩ ∧
    State.reset.result = ⟨none, none, none, none, none, none, none, none⟩) ∧
  ∀ (s : State) (rest : List HostEvent), s.seq.phase = .idle → s.host = .reset :: rest →
    ∃ t, step s = .next t ∧ t.lfsr = s.cfg.lfsrReset ∧ t.seq = ⟨.idle, [], [], 0, []⟩ ∧
      t.result = ⟨none, none, none, none, none, none, none, none⟩ ∧ t.cfg = s.cfg

/-- R232: a reset while a command runs is refused. (That it is shown by the event `resetDuring`, and by a reset while
the sequencer is out of IDLE, is log entry 6.) -/
def Obligations.ResetDuringCommandIsRefused : Prop :=
  (∀ (s : State) (w : CmdWord) (v : Option SeqVal) (rest : List HostEvent), s.seq.phase = .idle →
    s.host = .resetDuring w v :: rest → step s = .refused .resetInCommand) ∧
  ∀ (s : State) (rest : List HostEvent), s.seq.phase ≠ .idle → s.host = .reset :: rest →
    step s = .refused .resetInCommand

/-- A step runs the command whose word the host issued next: `exec` of the decoded command, with the operand on SIN
and the event taken from the queue (R22, R51, R73; log entry 4). -/
def Obligations.StepRunsTheIssuedCommand : Prop :=
  ∀ (s : State) (w : CmdWord) (v : Option SeqVal) (rest : List HostEvent), s.seq.phase = .idle →
    s.host = .command w v :: rest → step s = exec (decodeWord w) { s with sin := v, host := rest }

/-- In IDLE with no event pending nothing changes (R216), and an act of another instance touches `lfsr` alone, and
only where there is another instance (R52, R214). What it leaves there: a draw 16 steps of the LFSR under REF_LFSR
(R155) and nothing under FREE (R152), SEED its operand unless that is 0 (R162), a reset `LFSR_RESET` (R231). That
these acts are host events is log entries 4 and 9, and that a peer's draw advances `lfsr` for every `P_*` is log entry
21. -/
def Obligations.OtherEventsTouchOnlyTheSource : Prop :=
  (∀ s : State, s.seq.phase = .idle → s.host = [] → step s = .next s) ∧
  ∀ (s : State) (a : PeerAct) (rest : List HostEvent), s.host = .peer a :: rest →
    ∃ l, step s = .next { s with src := { s.src with lfsr := l }, host := rest } ∧
      (s.cfg.nInstances ≤ 1 → l = s.lfsr) ∧
      (1 < s.cfg.nInstances →
        (a = .draw → s.cfg.rngMode = .refLfsr → l = lfsrSteps 16 s.lfsr) ∧
        (a = .draw → s.cfg.rngMode = .free → l = s.lfsr) ∧
        (∀ x, a = .seed x → x ≠ 0 → l = x) ∧
        (a = .seed 0 → l = s.lfsr) ∧
        (a = .reset → l = s.cfg.lfsrReset))

/-- R51, R209: an event is dealt with to its end before the next one, and after a command, whatever its status, the
instance is in IDLE for the next. That the host's events, resets and other instances' acts among them, are a queue of
which a step takes exactly the first is log entry 4. -/
def Obligations.EventsAreHandledOneAtATime : Prop :=
  ∀ s t : State, s.seq.phase = .idle → step s = .next t → t.seq.phase = .idle ∧ t.host = s.host.tail

/-- A command in flight takes its next sequencer step; a further command waits (R188, R234; log entry 5). -/
def Obligations.BusyStepIsASequencerStep : Prop :=
  ∀ s : State, s.seq.phase ≠ .idle → drawsAllowed s.cfg = true →
    (s.host = [] ∨ ∃ w v rest, s.host = .command w v :: rest) → step s = .next (seqStep s)

/-- R238: each command a run completes contributes its result record, in order, and the run shows the last `lfsr`. -/
def Obligations.RunShowsEachResultInOrder : Prop :=
  ∀ (s t : State) (n : Nat) (w : CmdWord) (v : Option SeqVal) (rest : List HostEvent) (rs : List Result) (l : Word),
    s.seq.phase = .idle → s.host = .command w v :: rest → step s = .next t → observe n t = some (rs, l) →
    observe (n + 1) s = some (t.result :: rs, l) ∧ observe 1 s = some ([t.result], t.lfsr)

/-! Decoding and encoding. -/

/-- A few words written out from R73, R80 and the opcode table. -/
def Obligations.WrittenOutWordsDecode : Prop :=
  decodeTableWord 40 0x505000000 = some (.encode 0x500) ∧
  decodeTableWord 40 0x9B4000800 = some (.flip 0xB400 0x0800) ∧
  decodeTableWord 40 0xCACE10000 = some (.seed 0xACE1) ∧
  decodeTableWord 40 0xB00000000 = some .process ∧
  decodeTableWord 40 0xD00000000 = some .reservedD ∧
  decodeTableWord 40 0x1000000000 = none

/-- Decode and encode agree (R71-R75, R81): every legal command is read back from its word, FLIPPOS as the FLIP it
expands to; and every word, its ignored bits cleared, is the word of the command it spells. -/
def Obligations.DecodeAndEncodeAgree : Prop :=
  (∀ i : Instr, i.wf = true → decodeWord (encode i) =
    match i with
    | .flippos cw p q => .flip cw (flipposMask p q)
    | i => i) ∧
  ∀ w : CmdWord, encode (decodeWord w) = w &&& (decodeWord w).usedBits

/-- R75: a command's result and effect are the same for every value of its ignored bits, and the assembler writes
them as 0. -/
def Obligations.IgnoredBitsHaveNoEffect : Prop :=
  (∀ (s : State) (w w' : CmdWord) (v : Option SeqVal) (rest : List HostEvent), s.seq.phase = .idle →
    w &&& (decodeWord w).usedBits = w' &&& (decodeWord w).usedBits →
    step { s with host := .command w v :: rest } = step { s with host := .command w' v :: rest }) ∧
  ∀ i : Instr, encode i &&& ~~~ i.usedBits = 0

/-- R73: the command is selected by `CMD[35:32]` alone, and every opcode but the reserved ones is a command of the
map. -/
def Obligations.OpcodeAloneSelectsTheCommand : Prop :=
  ∀ w : CmdWord, (decodeWord w).opcode = w.extractLsb' 32 4 ∧
    (isReserved (decodeWord w) = true ↔ w.extractLsb' 32 4 ∈ [0x0#4, 0xD#4, 0xE#4, 0xF#4])

/-- R79, R80: a line that assembles issues the word of a legal command, or of SEED 0, with an operand of the
command's type. (Blanks, digits and number forms are log entry 12.) -/
def Obligations.AssembledLinesAreCommands : Prop :=
  ∀ (line : List Char) (e : HostEvent), assembleLine line = .ok (some e) →
    ∃ i v, e = .command (encode i) v ∧ (i.wf = true ∨ i = .seed 0) ∧ sinTyped i v

/-! BitConverter and Segmenter. -/

/-- R100: TOBITS gives one bit per character, 1 for U+0031 alone, and STATUS OK. -/
def Obligations.TobitsMapsEachCharacter : Prop :=
  ∀ (s : State) (t : List Symbol), s.sin = some (.text t) → t.length ≤ s.cfg.maxChars →
    ∃ bits, exec .tobits s = .next (Completed s s.src { sout := some (.bits bits), status := some .ok }) ∧
      bits.length = t.length ∧ ∀ j : Nat, bits[j]? = t[j]?.map fun c => c == 0x31#32

/-- R101: TOTEXT gives one character per bit, U+0031 for 1 and U+0030 for 0, and STATUS OK. -/
def Obligations.TotextMapsEachBit : Prop :=
  ∀ (s : State) (b : List Bit), s.sin = some (.bits b) → b.length ≤ s.cfg.maxChars →
    ∃ text, exec .totext s = .next (Completed s s.src { sout := some (.text text), status := some .ok }) ∧
      text.length = b.length ∧ ∀ j : Nat, text[j]? = b[j]?.map fun x => if x then 0x31#32 else 0x30#32

/-- The converter round trips (40_bitconv_segment, R102 as the spec derives it), through the commands. -/
def Obligations.ConverterRoundTrips : Prop :=
  ∀ s : State,
    (∀ b : List Bit, b.length ≤ s.cfg.maxChars →
      ∃ t, Yields .totext s (.bits b) (.text t) ∧ Yields .tobits s (.text t) (.bits b)) ∧
    ∀ t : List Symbol, t.length ≤ s.cfg.maxChars →
      ∃ b, Yields .tobits s (.text t) (.bits b) ∧ Yields .totext s (.bits b) (.text (degraded t)) ∧
        (degraded t = t ↔ ∀ c ∈ t, c = 0x31#32 ∨ c = 0x30#32)

/-- R103, R43: SPLIT gives `ceil(n / 11)` blocks; data bit `i` of block `b` is bit `11b + i - 1`, and 0 where the
bits have ended. -/
def Obligations.SplitCutsElevenBitBlocks : Prop :=
  ∀ (s : State) (bits : List Bit), s.sin = some (.bits bits) → bits.length ≤ s.cfg.maxChars →
    ∃ blocks, exec .split s = .next (Completed s s.src { sout := some (.blocks blocks), status := some .ok }) ∧
      blocks.length = (bits.length + 10) / 11 ∧
      ∀ (b : Nat) (d : DataWord), blocks[b]? = some d → ∀ i, 1 ≤ i → i ≤ 11 →
        dataBit d i = bits.getD (11 * b + (i - 1)) false

/-- R105: REASSEMBLE gives each block's 11 data bits in order, padding kept. -/
def Obligations.ReassembleJoinsTheBlocks : Prop :=
  ∀ (s : State) (blocks : List DataWord), s.sin = some (.blocks blocks) → blocks.length ≤ s.cfg.maxChars →
    ∃ bits, exec .reassemble s = .next (Completed s s.src { sout := some (.bits bits), status := some .ok }) ∧
      bits.length = 11 * blocks.length ∧
      ∀ b i, i < 11 → bits[11 * b + i]? = blocks[b]?.map fun d => dataBit d (i + 1)

/-- The segmenter round trips (40_bitconv_segment, R106 as the spec derives it), through the commands. -/
def Obligations.SegmenterRoundTrips : Prop :=
  ∀ s : State,
    (∀ bits : List Bit, bits.length ≤ s.cfg.maxChars →
      ∃ blocks out, Yields .split s (.bits bits) (.blocks blocks) ∧
        Yields .reassemble s (.blocks blocks) (.bits out) ∧
        out = bits ++ List.replicate ((11 - bits.length % 11) % 11) false ∧
        out.take bits.length = bits ∧ (out = bits ↔ 11 ∣ bits.length)) ∧
    ∀ blocks : List DataWord, 11 * blocks.length ≤ s.cfg.maxChars →
      ∃ bits, Yields .reassemble s (.blocks blocks) (.bits bits) ∧ Yields .split s (.bits bits) (.blocks blocks)

/-! HammingCodec. -/

/-- R120: ENCODE puts data bit `i` at position `DP(i)`, makes parity bits 1, 2, 4, 8 the parity of their data
positions and position 16 the parity of positions 1..15; RES is that codeword and STATUS is OK. -/
def Obligations.EncodePlacesDataAndParity : Prop :=
  ∀ (s : State) (d : DataWord),
    ∃ cw, exec (.encode d) s = .next (Completed s s.src { res := some cw, status := some .ok }) ∧
      (∀ i, 1 ≤ i → i ≤ 11 →
        bitAt cw ([3, 5, 6, 7, 9, 10, 11, 12, 13, 14, 15].getD (i - 1) 0) = dataBit d i) ∧
      bitAt cw 1 = xorAt cw [3, 5, 7, 9, 11, 13, 15] ∧
      bitAt cw 2 = xorAt cw [3, 6, 7, 10, 11, 14, 15] ∧
      bitAt cw 4 = xorAt cw [5, 6, 7, 12, 13, 14, 15] ∧
      bitAt cw 8 = xorAt cw [9, 10, 11, 12, 13, 14, 15] ∧
      bitAt cw 16 = xorAt cw [1, 2, 3, 4, 5, 6, 7, 8, 9, 10, 11, 12, 13, 14, 15]

/-- ENCODE in closed form over the data word (41_hamming_codec, R121 as the spec derives it). -/
def Obligations.EncodeInClosedForm : Prop :=
  ∀ (s : State) (d : DataWord),
    ∃ t, exec (.encode d) s = .next t ∧ t.result.res = some
      (BitVec.ofBool (parity (d &&& 0x6D5#11)) ++ BitVec.ofBool (parity (d &&& 0x5B3#11)) ++ d.extractLsb' 10 1 ++
        BitVec.ofBool (parity (d &&& 0x38F#11)) ++ d.extractLsb' 7 3 ++ BitVec.ofBool (parity (d &&& 0x07F#11)) ++
        d.extractLsb' 0 7 ++ BitVec.ofBool (parity (d &&& 0x769#11)) : BitVec 16)

/-- The code (41_hamming_codec, R122 as the spec derives it): every codeword has even weight and its four checks are
0, two data words' codewords differ in at least 4 positions, and some two differ in exactly 4. -/
def Obligations.CodeHasMinimumDistanceFour : Prop :=
  (∀ d d' : DataWord,
    parity (encodeBlock d) = false ∧ busSyndrome (encodeBlock d) = 0 ∧
    (d ≠ d' → 4 ≤ distance (encodeBlock d) (encodeBlock d'))) ∧
  ∃ d d' : DataWord, distance (encodeBlock d) (encodeBlock d') = 4

/-- R123, R124, R127: SYNDROME gives SYN and OVP as the parities of the bus masks, VERDICT and ERRPOS by the tables,
no RES, and STATUS OK whatever the verdict. -/
def Obligations.SyndromeFollowsTheTables : Prop :=
  ∀ (s : State) (cw : Word),
    exec (.syndrome cw) s = .next (Completed s s.src { tableDiagnosis cw with status := some .ok })

/-- R125, R128, R129: DECODE gives the four diagnostic fields in every case. Where SYN is not 0 and OVP is 0 it ends
with STATUS DED and no RES; otherwise RES is the data of the word with position SYN flipped if SYN is not 0. -/
def Obligations.DecodeCorrectsOrDetects : Prop :=
  ∀ (s : State) (cw : Word),
    (busSyndrome cw ≠ 0 ∧ parity cw = false →
      exec (.decode cw) s = .next (Completed s s.src { tableDiagnosis cw with status := some .ded })) ∧
    (¬ (busSyndrome cw ≠ 0 ∧ parity cw = false) →
      ∃ d, exec (.decode cw) s = .next
          (Completed s s.src { tableDiagnosis cw with res := some (d.zeroExtend 16), status := some .ok }) ∧
        ∀ i, 1 ≤ i → i ≤ 11 → dataBit d i =
          bitAt (if busSyndrome cw = 0 then cw else cw ^^^ (1#16 <<< (16 - (busSyndrome cw).toNat)))
            ([3, 5, 6, 7, 9, 10, 11, 12, 13, 14, 15].getD (i - 1) 0))

/-- R67, R68: the codes of verdicts and statuses, and the verdict's two bits as the spec derives them, for the verdict
SYNDROME publishes. -/
def Obligations.VerdictAndStatusCodes : Prop :=
  (Verdict.noError.code = 0b00#2 ∧ Verdict.singleExtra.code = 0b01#2 ∧ Verdict.singleCorrected.code = 0b10#2 ∧
    Verdict.doubleDetected.code = 0b11#2) ∧
  (Status.ok.code = 0b00#2 ∧ Status.malformed.code = 0b01#2 ∧ Status.loss.code = 0b10#2 ∧
    Status.ded.code = 0b11#2) ∧
  ∀ (s : State) (cw : Word), ∃ t v, exec (.syndrome cw) s = .next t ∧ t.result.verdict = some v ∧
    v.code.getLsbD 1 = decide (busSyndrome cw ≠ 0) ∧ v.code.getLsbD 0 = (parity cw ^^ v.code.getLsbD 1)

/-- Single errors are corrected (41_hamming_codec, R131 (a), (b) as the spec derives them): whatever ENCODE gives,
DECODE gives back the data with no flip and with one flip at any of the 16 positions. -/
def Obligations.SingleErrorsAreCorrected : Prop :=
  ∀ (s : State) (d : DataWord), ∃ t cw, exec (.encode d) s = .next t ∧ t.result.res = some cw ∧
    (∃ u, exec (.decode cw) t = .next u ∧ u.result.status = some .ok ∧ u.result.verdict = some .noError ∧
      u.result.res = some (d.zeroExtend 16)) ∧
    (∀ p, 1 ≤ p → p ≤ 15 → ∃ u, exec (.decode (cw ^^^ onehot p)) t = .next u ∧ u.result.status = some .ok ∧
      u.result.verdict = some .singleCorrected ∧ u.result.errpos = some (BitVec.ofNat 5 p) ∧
      u.result.res = some (d.zeroExtend 16)) ∧
    ∃ u, exec (.decode (cw ^^^ onehot 16)) t = .next u ∧ u.result.status = some .ok ∧
      u.result.verdict = some .singleExtra ∧ u.result.errpos = some 16 ∧ u.result.res = some (d.zeroExtend 16)

/-- Every double error is detected (41_hamming_codec, R131 (c) as the spec derives it; conflict C1). -/
def Obligations.DoubleErrorsAreDetected : Prop :=
  ∀ (s : State) (d : DataWord) (p q : Nat), 1 ≤ p → p ≤ 16 → 1 ≤ q → q ≤ 16 → p ≠ q →
    ∃ t cw u, exec (.encode d) s = .next t ∧ t.result.res = some cw ∧
      exec (.decode (cw ^^^ onehot p ^^^ onehot q)) t = .next u ∧
      u.result.status = some .ded ∧ u.result.verdict = some .doubleDetected ∧ u.result.res = none

/-- Three errors decode to wrong data with STATUS OK (41_hamming_codec, R130 as the spec derives it). -/
def Obligations.TripleErrorsGiveWrongData : Prop :=
  ∀ (s : State) (d : DataWord) (p q r : Nat), 1 ≤ p → p < q → q < r → r ≤ 16 →
    ∃ u x, exec (.decode (encodeBlock d ^^^ onehot p ^^^ onehot q ^^^ onehot r)) s = .next u ∧
      u.result.status = some .ok ∧
      (u.result.verdict = some .singleCorrected ∨ u.result.verdict = some .singleExtra) ∧
      u.result.res = some x ∧ x ≠ d.zeroExtend 16

/-- DECODE finds the nearest codeword (41_hamming_codec, R128's corner cases and R130 as the spec derives it): the
data of a codeword within distance 1, or DED where every codeword is at distance 2 or more. -/
def Obligations.DecodeFindsTheNearestCodeword : Prop :=
  ∀ (s : State) (cw : Word), ∃ t, exec (.decode cw) s = .next t ∧
    ((∃ d, distance cw (encodeBlock d) ≤ 1 ∧ t.result.status = some .ok ∧
        t.result.res = some (d.zeroExtend 16)) ∨
      ((∀ d, 2 ≤ distance cw (encodeBlock d)) ∧ t.result.status = some .ded ∧ t.result.res = none))

/-! Random source and ChannelSimulator. -/

/-- R154: the LFSR step, which never leaves the nonzero states and from any of them reaches every one. -/
def Obligations.LfsrRunsThroughAllNonzeroStates : Prop :=
  (∀ s : Word, lfsrStep s = if s.getLsbD 0 then (s >>> 1) ^^^ 0xB400#16 else s >>> 1) ∧
  (∀ s : Word, s ≠ 0 → lfsrStep s ≠ 0) ∧
  ∀ a b : Word, a ≠ 0 → b ≠ 0 → ∃ n, n < 65535 ∧ lfsrSteps n a = b

/-- R161: LOSS takes one draw and reports it in bit 0 of RES, with STATUS OK. Under FREE mode the draw is the
environment's and `lfsr` stays; under REF_LFSR it is 1 iff `u mod 100 < 100 * P_LOSS`, where `u` is `lfsr` after 16
steps. (What other instances did before, for `N_INSTANCES > 1`, is log entry 9.) -/
def Obligations.LossReportsItsDraw : Prop :=
  ∀ s : State,
    (s.cfg.rngMode = .free → ∃ b : Bool,
      exec .loss s = .next (Completed s (afterFreeDraw s.src)
        { res := some (if b then 1 else 0), status := some .ok }) ∧
      ∀ e es, s.src.env = e :: es → b = e.bit) ∧
    (s.cfg.rngMode = .refLfsr → drawsAllowed s.cfg = true → ∃ l : Word,
      (s.cfg.nInstances ≤ 1 → l = s.lfsr) ∧
      exec .loss s = .next (Completed s { afterFreeDraw s.src with lfsr := lfsrSteps 16 l }
        { res := some (if (lfsrSteps 16 l).toNat % 100 * s.cfg.pLoss.den < 100 * s.cfg.pLoss.num then 1 else 0)
          status := some .ok }))

/-- R158: CORRUPT under FREE mode, by the values of its draws, which are 1, 3 or 4 in number: RES is the operand xor
the mask, EMASK the mask, STATUS OK. Coinciding positions give the mask 0. -/
def Obligations.CorruptFollowsItsDraws : Prop :=
  ∀ (s : State) (cw : Word), s.cfg.rngMode = .free →
    (∀ e1 rest, s.src.env = e1 :: rest → e1.bit = false →
      exec (.corrupt cw) s = .next (Completed s (afterFreeDraw s.src)
        { res := some cw, emask := some 0, status := some .ok })) ∧
    (∀ e1 e2 e3 rest, s.src.env = e1 :: e2 :: e3 :: rest → e1.bit = true → e2.bit = false →
      exec (.corrupt cw) s = .next (Completed s { s.src with env := rest, drawn := s.src.drawn + 3 }
        { res := some (cw ^^^ onehot (e3.pos.val + 1)), emask := some (onehot (e3.pos.val + 1))
          status := some .ok })) ∧
    (∀ e1 e2 e3 e4 rest, s.src.env = e1 :: e2 :: e3 :: e4 :: rest → e1.bit = true → e2.bit = true →
      exec (.corrupt cw) s = .next (Completed s { s.src with env := rest, drawn := s.src.drawn + 4 }
        { res := some (cw ^^^ (onehot (e3.pos.val + 1) ^^^ onehot (e4.pos.val + 1)))
          emask := some (onehot (e3.pos.val + 1) ^^^ onehot (e4.pos.val + 1)), status := some .ok }))

/-- R155, R157: CORRUPT under REF_LFSR with one instance: its draws are `lfsr` after 16, 32, 48 and 64 steps, mapped
by the thresholds and by `1 + (u mod 15)`. -/
def Obligations.CorruptUnderTheReferenceLfsr : Prop :=
  ∀ (s : State) (cw : Word), s.cfg.rngMode = .refLfsr → drawsAllowed s.cfg = true → s.cfg.nInstances ≤ 1 →
    ∃ t m, exec (.corrupt cw) s = .next t ∧ t.result = { res := some (cw ^^^ m), emask := some m, status := some .ok } ∧
      (if (lfsrSteps 16 s.lfsr).toNat % 100 * s.cfg.pEvent.den < 100 * s.cfg.pEvent.num then
        if (lfsrSteps 32 s.lfsr).toNat % 100 * s.cfg.pDouble.den < 100 * s.cfg.pDouble.num then
          m = onehot (1 + (lfsrSteps 48 s.lfsr).toNat % 15) ^^^ onehot (1 + (lfsrSteps 64 s.lfsr).toNat % 15) ∧
            t.lfsr = lfsrSteps 64 s.lfsr
        else m = onehot (1 + (lfsrSteps 48 s.lfsr).toNat % 15) ∧ t.lfsr = lfsrSteps 48 s.lfsr
      else m = 0 ∧ t.lfsr = lfsrSteps 16 s.lfsr)

/-- The masks CORRUPT can apply under FREE mode are exactly those of weight at most 2 that leave position 16 alone
(42_channel, R159 as the spec derives it; R152). -/
def Obligations.CorruptMasksAreExactlyTheLightOnes : Prop :=
  ∀ (s : State) (cw m : Word), s.cfg.rngMode = .free →
    ((∃ env t, exec (.corrupt cw) { s with src := { s.src with env := env } } = .next t ∧
        t.result.emask = some m ∧ t.result.res = some (cw ^^^ m)) ↔
      (m.getLsbD 0 = false ∧ weight m ≤ 2))

/-- ENCODE, CORRUPT, DECODE never gives wrong data (42_channel, R159 as the spec derives it), in either mode: the data
with STATUS OK if at most one bit was flipped, DED if two were. -/
def Obligations.InjectedErrorsNeverGiveWrongData : Prop :=
  ∀ (s : State) (d : DataWord), drawsAllowed s.cfg = true →
    ∃ s1 cw s2 cw2 m s3, exec (.encode d) s = .next s1 ∧ s1.result.res = some cw ∧
      exec (.corrupt cw) s1 = .next s2 ∧ s2.result.res = some cw2 ∧ s2.result.emask = some m ∧
      exec (.decode cw2) s2 = .next s3 ∧
      (weight m ≤ 1 ∧ s3.result.status = some .ok ∧ s3.result.res = some (d.zeroExtend 16) ∨
        weight m = 2 ∧ s3.result.status = some .ded ∧ s3.result.res = none)

/-- R160: FLIP gives the operand xor the mask, reports the mask, takes no draw, and undoes itself. -/
def Obligations.FlipXorsTheMask : Prop :=
  ∀ (s : State) (a b : Word),
    exec (.flip a b) s = .next (Completed s s.src { res := some (a ^^^ b), emask := some b, status := some .ok }) ∧
    ∃ t, exec (.flip (a ^^^ b) b) s = .next t ∧ t.result.res = some a

/-- FLIPPOS (30_encoding, R81) is one FLIP, with the mask bit of `p`, or of `p` xor of `q`; the mask of a position in
1..16 holds that position alone, and `p = q` cancels. The assembler gives a line with legal positions the word of that
FLIP, and answers a line with a first or second position outside 1..16 with an assembly error. (That FLIPPOS is a term
of its own, ill-formed with such a position, is log entry 10; the blanks and the decimal positions of a line are log
entry 12.) -/
def Obligations.FlipposIsOneFlip : Prop :=
  (∀ (s : State) (cw : Word) (p : Nat), 1 ≤ p → p ≤ 16 → ∃ m,
    exec (.flippos cw p none) s =
      .next (Completed s s.src { res := some (cw ^^^ m), emask := some m, status := some .ok }) ∧
    exec (.flippos cw p none) s = exec (.flip cw m) s ∧
    ∀ j, 1 ≤ j → j ≤ 16 → bitAt m j = decide (j = p)) ∧
  (∀ (s : State) (cw : Word) (p q : Nat), 1 ≤ p → p ≤ 16 → 1 ≤ q → q ≤ 16 → ∃ m,
    exec (.flippos cw p (some q)) s =
      .next (Completed s s.src { res := some (cw ^^^ m), emask := some m, status := some .ok }) ∧
    exec (.flippos cw p (some q)) s = exec (.flip cw m) s ∧ (p = q → m = 0) ∧
    ∀ j, 1 ≤ j → j ≤ 16 → bitAt m j = (decide (j = p) ^^ decide (j = q))) ∧
  (∀ (cw : Word) (p : Nat) (q : Option Nat), ¬ (1 ≤ p ∧ p ≤ 16) ∨ (∃ r, q = some r ∧ ¬ (1 ≤ r ∧ r ≤ 16)) →
    (Instr.flippos cw p q).wf = false) ∧
  (∀ (w pc : List Char) (cw : Word) (p : Nat), codeLiteral w = some cw → numeral 10 pc = some p →
    assembleLine ("FLIPPOS ".toList ++ w ++ ", ".toList ++ pc) =
      if 1 ≤ p ∧ p ≤ 16 then .ok (some (.command (encode (.flip cw (onehot p))) none)) else .error .badPosition) ∧
  ∀ (w pc qc : List Char) (cw : Word) (p q : Nat), codeLiteral w = some cw → numeral 10 pc = some p →
    numeral 10 qc = some q →
    assembleLine ("FLIPPOS ".toList ++ w ++ ", ".toList ++ pc ++ ", ".toList ++ qc) =
      if (1 ≤ p ∧ p ≤ 16) ∧ 1 ≤ q ∧ q ≤ 16 then
        .ok (some (.command (encode (.flip cw (onehot p ^^^ onehot q))) none))
      else .error .badPosition

/-- R162: SEED loads its operand into `lfsr` in both modes and takes no draw; 0 is refused; under REF_LFSR with one
instance the next draw is 16 steps on. -/
def Obligations.SeedLoadsTheSource : Prop :=
  (∀ (s : State) (a : Word), a ≠ 0 →
    exec (.seed a) s = .next (Completed s { s.src with lfsr := a } { status := some .ok })) ∧
  (∀ s : State, exec (.seed 0) s = .refused .zeroSeed) ∧
  ∀ (s : State) (a : Word), a ≠ 0 → s.cfg.rngMode = .refLfsr → drawsAllowed s.cfg = true → s.cfg.nInstances ≤ 1 →
    ∃ t u, exec (.seed a) s = .next t ∧ exec .loss t = .next u ∧ u.lfsr = lfsrSteps 16 a

/-- R152: under FREE mode no command but SEED writes `lfsr`, and no result depends on it; a draw can have either
value. -/
def Obligations.FreeDrawsIgnoreTheLfsr : Prop :=
  ∀ (s : State), s.cfg.rngMode = .free →
    (∀ (i : Instr) (t : State), isSeed i = false → exec i s = .next t → t.lfsr = s.lfsr ∧
      ∀ l : Word, exec i { s with src := { s.src with lfsr := l } } = .next { t with src := { t.src with lfsr := l } }) ∧
    ∀ b : Bool, ∃ env t, exec .loss { s with src := { s.src with env := env } } = .next t ∧
      t.result.res = some (if b then 1 else 0)

/-- Under REF_LFSR with one instance `lfsr` advances 16 steps per draw and in no other way (R155), and the draws of a
command are as many as R158, R161 and R187 say. -/
def Obligations.LfsrCountsTheDraws : Prop :=
  ∀ (i : Instr) (s t : State), s.cfg.rngMode = .refLfsr → s.cfg.nInstances ≤ 1 → isSeed i = false →
    exec i s = .next t →
    ∃ n, t.src.drawn = s.src.drawn + n ∧ t.lfsr = lfsrSteps (16 * n) s.lfsr ∧
      (takesDraws i = false → n = 0) ∧ (i = .loss → n = 1) ∧
      ((∃ cw, i = .corrupt cw) → n = 1 ∨ n = 3 ∨ n = 4) ∧
      ∀ p, i = .process → s.sin = some (.text p) →
        (t.result.status = some .loss → n = 1) ∧
        (t.result.status = some .ok → 1 + blockCount p.length ≤ n ∧ n ≤ 1 + 4 * blockCount p.length) ∧
        (t.result.status = some .ded → 5 ≤ n ∧ n ≤ 1 + 4 * blockCount p.length)

/-! RelayPipeline. -/

/-- PROCESS (43_pipeline, R186 (a), (b), (f) as the spec derives them): it ends with OK, LOSS or DED, and with OK its
output is the payload's text, padded with `'0'` to whole blocks under KEEP_PADDING and not under TRUNCATE. -/
def Obligations.ProcessNeverDeliversWrongData : Prop :=
  ∀ (s : State) (t : List Symbol), s.sin = some (.text t) → t.length ≤ s.cfg.maxChars → drawsAllowed s.cfg = true →
    ∃ src r, exec .process s = .next (Completed s src r) ∧
      (r = { status := some .loss } ∨ r = { status := some .ded } ∨
        r = { status := some .ok, sout := some (.text (match s.cfg.padMode with
          | .keepPadding => degraded t ++ List.replicate (11 * ((t.length + 10) / 11) - t.length) 0x30#32
          | .truncate => degraded t)) })

/-- What PROCESS can end with under FREE mode (43_pipeline, R186 (c), (d), (e) as the spec derives them): LOSS and OK
for every payload, DED exactly for a payload that is not empty. -/
def Obligations.ProcessOutcomesAreReachable : Prop :=
  ∀ (s : State) (t : List Symbol), s.cfg.rngMode = .free → t.length ≤ s.cfg.maxChars → ∀ st : Status,
    (∃ env u, exec .process { s with sin := some (.text t), src := { s.src with env := env } } = .next u ∧
      u.result.status = some st) ↔ (st = .loss ∨ st = .ok ∨ (st = .ded ∧ t ≠ []))

/-- R203: PROCESS ends with LOSS exactly where the LOSS command, from the same state, reports 1; then that draw is the
only one taken. LOSS itself completes with OK, and no other command ends with LOSS. -/
def Obligations.SimulatedLossIsTheLossDraw : Prop :=
  (∀ (s : State) (t : List Symbol), s.sin = some (.text t) → t.length ≤ s.cfg.maxChars → drawsAllowed s.cfg = true →
    ∃ u v, exec .process s = .next u ∧ exec .loss s = .next v ∧ v.result.status = some .ok ∧
      (u.result.status = some .loss ↔ v.result.res = some 1) ∧
      (u.result.status = some .loss → u.src = v.src ∧ u.result.sout = none)) ∧
  ∀ (i : Instr) (s t : State), i ≠ .process → exec i s = .next t → t.result.status ≠ some .loss

/-- Where the blocks of a payload end PROCESS with DED, further blocks change nothing: no draw is taken for them and no
text is output (43_pipeline, from R183; which block ends it, and that it does, is `ProcessIsItsPartsBlockByBlock`). -/
def Obligations.FurtherBlocksChangeNothingAfterDed : Prop :=
  ∀ (s u : State) (t more : List Symbol), 11 ∣ t.length → (t ++ more).length ≤ s.cfg.maxChars →
    exec .process { s with sin := some (.text t) } = .next u → u.result.status = some .ded →
    exec .process { s with sin := some (.text (t ++ more)) } = .next u ∧ u.result.sout = none

/-- R188: the sequencer, run in small steps from IDLE to IDLE, gives exactly the results and draws of PROCESS. -/
def Obligations.SequencerRefinesProcess : Prop :=
  ∀ (s : State) (t : List Symbol), s.seq = Seq.idle → s.sin = some (.text t) → t.length ≤ s.cfg.maxChars →
    drawsAllowed s.cfg = true →
    exec .process s = .next (seqRun (blockCount t.length + 3) (seqIssue t s)) ∧
      (seqRun (blockCount t.length + 3) (seqIssue t s)).seq.phase = .idle

/-- R181 on a payload of one block: PROCESS is LOSS, then ENCODE, CORRUPT and DECODE, each drawing from where the one
before left the source. -/
def Obligations.ProcessOfOneBlockIsItsParts : Prop :=
  ∀ (s s1 s2 s3 s4 u : State) (t : List Symbol) (d : DataWord) (cw cw2 : Word),
    t.length ≤ s.cfg.maxChars → splitBits (textToBits t) = [d] →
    exec .loss s = .next s1 → s1.result.res = some 0 →
    exec (.encode d) s1 = .next s2 → s2.result.res = some cw →
    exec (.corrupt cw) s2 = .next s3 → s3.result.res = some cw2 →
    exec (.decode cw2) s3 = .next s4 →
    exec .process { s with sin := some (.text t) } = .next u →
    u.src = s4.src ∧ u.result.status = s4.result.status

/-- R181, R183: PROCESS is LOSS, then ENCODE, CORRUPT and DECODE block by block, each drawing from where the one before
left the source. LOSS 1 ends it with LOSS; the first block, whichever it is, that DECODE ends with DED ends it with DED,
no draw taken after that block's; otherwise its output is the decoded blocks' text, cut to the payload's length under
TRUNCATE. No other field is produced, and nothing but the source changes. -/
def Obligations.ProcessIsItsPartsBlockByBlock : Prop :=
  ∀ (s : State) (t : List Symbol), t.length ≤ s.cfg.maxChars → drawsAllowed s.cfg = true →
    ∃ bits blocks s1,
      Yields .tobits s (.text t) (.bits bits) ∧ Yields .split s (.bits bits) (.blocks blocks) ∧
      exec .loss s = .next s1 ∧
      (s1.result.res = some 1 ∧
        exec .process { s with sin := some (.text t) } = .next (Completed s s1.src { status := some .loss }) ∨
      s1.result.res = some 0 ∧ ∃ data s2, BlocksRun blocks s1 data s2 ∧
        match data with
        | none =>
          exec .process { s with sin := some (.text t) } = .next (Completed s s2.src { status := some .ded })
        | some acc => ∃ out, Yields .reassemble s (.blocks acc) (.bits out) ∧
          exec .process { s with sin := some (.text t) } = .next (Completed s s2.src
            { status := some .ok
              sout := some (.text ((match s.cfg.padMode with
                | .keepPadding => out
                | .truncate => out.take bits.length).map fun x : Bit => if x then 0x31 else 0x30)) }))

/-! All commands. -/

/-- R74: the four reserved opcodes are refused, whatever their other bits and whatever the state. -/
def Obligations.ReservedOpcodesAreRefused : Prop :=
  (∀ s : State, exec .reserved0 s = .refused .reservedOpcode ∧ exec .reservedD s = .refused .reservedOpcode ∧
    exec .reservedE s = .refused .reservedOpcode ∧ exec .reservedF s = .refused .reservedOpcode) ∧
  ∀ (s : State) (w : CmdWord) (v : Option SeqVal) (rest : List HostEvent), s.seq.phase = .idle →
    s.host = .command w v :: rest → w.extractLsb' 32 4 ∈ [0x0#4, 0xD#4, 0xE#4, 0xF#4] →
    step s = .refused .reservedOpcode

/-- A command completes exactly where no refusal applies (60_exceptions section 3, R237; that an operand of the wrong
type is refused is log entry 7, when BadProbability is raised is log entry 8, that a FLIPPOS term completes even with a
position outside 1..16, which no assembled line has, is log entry 10), and a refusal is for its own reason. -/
def Obligations.CommandsCompleteUnlessRefused : Prop :=
  ∀ (i : Instr) (s : State),
    ((∃ t, exec i s = .next t) ↔
      (isReserved i = false ∧ i ≠ .seed 0 ∧ sinFits s.cfg i s.sin = true ∧
        (takesDraws i = true → drawsAllowed s.cfg = true))) ∧
    ∀ r, exec i s = .refused r →
      (r = .reservedOpcode ∧ isReserved i = true) ∨ (r = .zeroSeed ∧ i = .seed 0) ∨
      (r = .tooLong ∧ sinTyped i s.sin ∧ emptySin i ≠ none ∧ sinFits s.cfg i s.sin = false) ∨
      (r = .operandMismatch ∧ emptySin i ≠ none ∧ ¬ sinTyped i s.sin) ∨
      (r = .badProbability ∧ takesDraws i = true ∧ drawsAllowed s.cfg = false)

/-- R41, R207 (TooLong): a sequence operand of more than `MAX_CHARS` elements is refused. -/
def Obligations.OverlongOperandsAreRefused : Prop :=
  ∀ (s : State) (t : List Symbol) (b : List Bit) (d : List DataWord),
    (s.cfg.maxChars < t.length →
      exec .tobits { s with sin := some (.text t) } = .refused .tooLong ∧
      exec .process { s with sin := some (.text t) } = .refused .tooLong) ∧
    (s.cfg.maxChars < b.length →
      exec .totext { s with sin := some (.bits b) } = .refused .tooLong ∧
      exec .split { s with sin := some (.bits b) } = .refused .tooLong) ∧
    (s.cfg.maxChars < d.length → exec .reassemble { s with sin := some (.blocks d) } = .refused .tooLong)

/-- R24: every completed command gives a STATUS its row lists, and produces exactly the fields its row lists, SOUT in
the row's type. -/
def Obligations.CommandsProduceTheirFields : Prop :=
  ∀ (i : Instr) (s t : State), exec i s = .next t →
    ∃ st, t.result.status = some st ∧ tableFields i st = some (producedFields t.result) ∧ soutTyped i t.result.sout

/-- The frame of every command (R21, R22, R27, R49, R51): it leaves the configuration, the sequencer and the host's
events alone and keeps no operand; a command that takes no draw leaves the random source alone, but for SEED, which
writes `lfsr` and nothing else of it. -/
def Obligations.CommandsLeaveTheRestAlone : Prop :=
  ∀ (i : Instr) (s t : State), exec i s = .next t →
    t.cfg = s.cfg ∧ t.seq = s.seq ∧ t.host = s.host ∧ t.sin = none ∧
    (takesDraws i = false → isSeed i = false → t.src = s.src) ∧
    (∀ a, i = .seed a → t.src = { s.src with lfsr := a })

/-- R33, R49: a command that takes no draw is a function of its operands, whatever was done before: two instances
with the same length bound give the same result record. -/
def Obligations.CommandsWithoutDrawsAreFunctions : Prop :=
  ∀ (i : Instr) (s s' t : State), takesDraws i = false → s'.sin = s.sin → s'.cfg.maxChars = s.cfg.maxChars →
    exec i s = .next t → ∃ t', exec i s' = .next t' ∧ t'.result = t.result

/-- R25, R33: what an earlier command left in the result record, and the sequencer, do not reach a later command. -/
def Obligations.EarlierResultsReachNoCommand : Prop :=
  ∀ (i : Instr) (s : State) (r : Result) (q : Seq),
    (∀ t, exec i s = .next t → exec i { s with result := r, seq := q } = .next { t with seq := q }) ∧
    ∀ f, exec i s = .refused f → exec i { s with result := r, seq := q } = .refused f

/-- R52, R214: under FREE mode an instance behaves as if it were alone. -/
def Obligations.FreeInstanceBehavesAsIfAlone : Prop :=
  ∀ (i : Instr) (s t : State), s.cfg.rngMode = .free → exec i s = .next t → exec i (alone s) = .next (alone t)

/-! The invariant. -/

/-- The invariant holds right after reset (R28, R29, R32). -/
def Obligations.InvariantHoldsAtReset : Prop := State.reset.Inv

/-- Every step keeps the invariant: a legal configuration, `lfsr` never 0 (R28), a coherent sequencer whose decoded
blocks are the payload's (R29, R188), and a result record as the rules allow it. -/
def Obligations.EveryStepKeepsTheInvariant : Prop :=
  ∀ s t : State, s.Inv → step s = .next t → t.Inv
end

