-- ==== Sys2Proof/Laws/Assembler.lean ====
section
/-! SUPPORT. Words without delimiters in a source line: how they are read, and that literals are such words. -/

namespace Sys2Proof.Machine

/-- A character that neither ends a word nor starts a text or a comment. -/
def plainChar (c : Char) : Bool := c ∉ [';', '"', ' ', ',', '[', ']']

/-- A plain word is gathered whole. -/
theorem tokens_plain (w : List Char) (hw : w.all plainChar = true) (cur rest : List Char) :
    tokens none cur (w ++ rest) = tokens none (w.reverse ++ cur) rest := by
  induction w generalizing cur with
  | nil => rfl
  | cons c w ih =>
    simp only [List.all_cons, Bool.and_eq_true, plainChar, List.mem_cons, List.not_mem_nil, or_false, not_or,
      decide_eq_true_eq] at hw
    obtain ⟨⟨h1, h2, h3, h4, h5, h6⟩, hw⟩ := hw
    rw [List.cons_append, tokens, if_neg h1, if_neg h2, if_neg h3, if_neg h4, if_neg h5, if_neg h6, ih hw]
    simp

/-- A plain word that ends the line. -/
theorem tokens_plain_end (w : List Char) (hw : w.all plainChar = true) (h0 : w ≠ []) :
    tokens none [] w = .ok [.word w] := by
  have h := tokens_plain w hw [] []
  rw [List.append_nil] at h
  rw [h]
  simp [tokens, flushWord, h0]

/-- A plain word, a blank, and what follows. -/
theorem tokens_plain_blank (w rest : List Char) (hw : w.all plainChar = true) (h0 : w ≠ []) :
    tokens none [] (w ++ ' ' :: rest) = (tokens none [] rest).map (.word w :: ·) := by
  rw [tokens_plain w hw, tokens]
  have hf : flushWord w.reverse = (.word w :: ·) := by funext ts; simp [flushWord, h0]
  simp [hf]

/-- A plain word, a comma and a blank, and what follows. -/
theorem tokens_plain_comma (w rest : List Char) (hw : w.all plainChar = true) (h0 : w ≠ []) :
    tokens none [] (w ++ ',' :: ' ' :: rest) = (tokens none [] rest).map fun ts => .word w :: .comma :: ts := by
  rw [tokens_plain w hw, tokens]
  simp only [Char.reduceEq, if_false, if_true, List.append_nil]
  rw [tokens]
  simp only [Char.reduceEq, if_false, if_true]
  cases tokens none [] rest <;> simp [Except.map, flushWord, h0]

theorem digitVal_plain {base : Nat} {c : Char} {v : Nat} (h : digitVal base c = some v) : plainChar c = true := by
  by_contra hp
  simp only [plainChar, List.mem_cons, List.not_mem_nil, or_false, decide_eq_true_eq, not_not] at hp
  rcases hp with rfl | rfl | rfl | rfl | rfl | rfl <;> simp [digitVal] at h

/-- A numeral is a plain word of at least one character. -/
theorem numeral_plain {base n : Nat} {ds : List Char} (h : numeral base ds = some n) :
    ds.all plainChar = true ∧ ds ≠ [] := by
  have hf : ∀ (ds : List Char) (a : Nat), (ds.foldlM (fun n c => (digitVal base c).map (base * n + ·)) a) = some n →
      ds.all plainChar = true := by
    intro ds
    induction ds with
    | nil => intro a _; rfl
    | cons c ds ih =>
      intro a ha
      rw [List.foldlM_cons] at ha
      cases hd : digitVal base c with
      | none => simp [hd] at ha
      | some v =>
        simp only [hd, Option.map_some, Option.bind_eq_bind, Option.bind_some] at ha
        rw [List.all_cons, digitVal_plain hd, ih _ ha, Bool.and_self]
  unfold numeral at h
  split at h
  · cases h
  · next h0 => exact ⟨hf ds 0 h, by simpa using h0⟩

/-- A word literal is a plain word of at least one character. -/
theorem wordLiteral_plain {width k : Nat} {w : List Char} {x : BitVec width} (h : wordLiteral width k w = some x) :
    w.all plainChar = true ∧ w ≠ [] := by
  unfold wordLiteral at h
  split at h
  · next ds =>
    split at h
    · cases hn : numeral 16 ds with
      | none => simp [hn] at h
      | some n => exact ⟨by rw [List.all_cons, List.all_cons, (numeral_plain hn).1]; decide, by simp⟩
    · cases h
  · next ds =>
    split at h
    · cases hn : numeral 2 ds with
      | none => simp [hn] at h
      | some n => exact ⟨by rw [List.all_cons, List.all_cons, (numeral_plain hn).1]; decide, by simp⟩
    · cases h
  · cases h

/-- A FLIPPOS line with one position, read (R81). -/
theorem assembleLine_flippos {w p : List Char} {cw : Word} {n : Nat} (hw : codeLiteral w = some cw)
    (hp : numeral 10 p = some n) :
    assembleLine ("FLIPPOS ".toList ++ (w ++ ',' :: ' ' :: p)) =
      (flipposLine (some cw) (some n) none).map fun c => some (.command (encode c.1) c.2) := by
  obtain ⟨w1, w2⟩ := wordLiteral_plain hw
  obtain ⟨p1, p2⟩ := numeral_plain hp
  have h : tokens none [] ("FLIPPOS ".toList ++ (w ++ ',' :: ' ' :: p)) =
      .ok [.word "FLIPPOS".toList, .word w, .comma, .word p] := by
    rw [show "FLIPPOS ".toList ++ (w ++ ',' :: ' ' :: p) = "FLIPPOS".toList ++ ' ' :: (w ++ ',' :: ' ' :: p) from rfl,
      tokens_plain_blank _ _ (by decide) (by decide), tokens_plain_comma _ _ w1 w2, tokens_plain_end _ p1 p2]
    rfl
  rw [assembleLine, h]
  simp [command, hw, hp]

/-- A FLIPPOS line with two positions, read (R81). -/
theorem assembleLine_flippos_two {w p q : List Char} {cw : Word} {n k : Nat} (hw : codeLiteral w = some cw)
    (hp : numeral 10 p = some n) (hq : numeral 10 q = some k) :
    assembleLine ("FLIPPOS ".toList ++ (w ++ ',' :: ' ' :: (p ++ ',' :: ' ' :: q))) =
      (flipposLine (some cw) (some n) (some (some k))).map fun c => some (.command (encode c.1) c.2) := by
  obtain ⟨w1, w2⟩ := wordLiteral_plain hw
  obtain ⟨p1, p2⟩ := numeral_plain hp
  obtain ⟨q1, q2⟩ := numeral_plain hq
  have h : tokens none [] ("FLIPPOS ".toList ++ (w ++ ',' :: ' ' :: (p ++ ',' :: ' ' :: q))) =
      .ok [.word "FLIPPOS".toList, .word w, .comma, .word p, .comma, .word q] := by
    rw [show "FLIPPOS ".toList ++ (w ++ ',' :: ' ' :: (p ++ ',' :: ' ' :: q)) =
        "FLIPPOS".toList ++ ' ' :: (w ++ ',' :: ' ' :: (p ++ ',' :: ' ' :: q)) from rfl,
      tokens_plain_blank _ _ (by decide) (by decide), tokens_plain_comma _ _ w1 w2, tokens_plain_comma _ _ p1 p2,
      tokens_plain_end _ q1 q2]
    rfl
  rw [assembleLine, h]
  simp [command, hw, hp, hq]

end Sys2Proof.Machine
end

