-- ==== Sys2Proof/Laws/State.lean ====
section
/-! SUPPORT. What each update of the state and of the random source does to each field. -/

namespace Sys2Proof.Machine

variable (s : State) (r : Result) (e : BlockError) (x : Source) (v : Option SeqVal) (rest : List HostEvent)

@[simp] theorem State.complete_cfg : (s.complete r).cfg = s.cfg := rfl
@[simp] theorem State.complete_src : (s.complete r).src = s.src := rfl
@[simp] theorem State.complete_seq : (s.complete r).seq = s.seq := rfl
@[simp] theorem State.complete_result : (s.complete r).result = r := rfl
@[simp] theorem State.complete_sin : (s.complete r).sin = none := rfl
@[simp] theorem State.complete_host : (s.complete r).host = s.host := rfl

@[simp] theorem State.completeOk_cfg : (s.completeOk r).cfg = s.cfg := rfl
@[simp] theorem State.completeOk_src : (s.completeOk r).src = s.src := rfl
@[simp] theorem State.completeOk_seq : (s.completeOk r).seq = s.seq := rfl
@[simp] theorem State.completeOk_result : (s.completeOk r).result = { r with status := some .ok } := rfl
@[simp] theorem State.completeOk_sin : (s.completeOk r).sin = none := rfl
@[simp] theorem State.completeOk_host : (s.completeOk r).host = s.host := rfl

@[simp] theorem State.raise_cfg : (s.raise e r).cfg = s.cfg := rfl
@[simp] theorem State.raise_src : (s.raise e r).src = s.src := rfl
@[simp] theorem State.raise_seq : (s.raise e r).seq = s.seq := rfl
@[simp] theorem State.raise_result :
    (s.raise e r).result = { r with status := some e.status, sout := none } := rfl
@[simp] theorem State.raise_sin : (s.raise e r).sin = none := rfl
@[simp] theorem State.raise_host : (s.raise e r).host = s.host := rfl

@[simp] theorem State.withSrc_cfg : (s.withSrc x).cfg = s.cfg := rfl
@[simp] theorem State.withSrc_src : (s.withSrc x).src = x := rfl
@[simp] theorem State.withSrc_seq : (s.withSrc x).seq = s.seq := rfl
@[simp] theorem State.withSrc_result : (s.withSrc x).result = s.result := rfl
@[simp] theorem State.withSrc_sin : (s.withSrc x).sin = s.sin := rfl
@[simp] theorem State.withSrc_host : (s.withSrc x).host = s.host := rfl

@[simp] theorem State.accept_cfg : (s.accept v rest).cfg = s.cfg := rfl
@[simp] theorem State.accept_src : (s.accept v rest).src = s.src := rfl
@[simp] theorem State.accept_seq : (s.accept v rest).seq = s.seq := rfl
@[simp] theorem State.accept_result : (s.accept v rest).result = s.result := rfl
@[simp] theorem State.accept_sin : (s.accept v rest).sin = v := rfl
@[simp] theorem State.accept_host : (s.accept v rest).host = rest := rfl

@[simp] theorem State.resetEffect_cfg : s.resetEffect.cfg = s.cfg := rfl
@[simp] theorem State.resetEffect_lfsr : s.resetEffect.src.lfsr = s.cfg.lfsrReset := rfl
@[simp] theorem State.resetEffect_env : s.resetEffect.src.env = s.src.env := rfl
@[simp] theorem State.resetEffect_drawn : s.resetEffect.src.drawn = s.src.drawn := rfl
@[simp] theorem State.resetEffect_seq : s.resetEffect.seq = Seq.idle := rfl
@[simp] theorem State.resetEffect_result : s.resetEffect.result = Result.empty := rfl
@[simp] theorem State.resetEffect_sin : s.resetEffect.sin = none := rfl
@[simp] theorem State.resetEffect_host : s.resetEffect.host = s.host := rfl

@[simp] theorem Seq.idle_phase : Seq.idle.phase = .idle := rfl
@[simp] theorem Seq.idle_bits : Seq.idle.bits = [] := rfl
@[simp] theorem Seq.idle_blocks : Seq.idle.blocks = [] := rfl
@[simp] theorem Seq.idle_k : Seq.idle.k = 0 := rfl
@[simp] theorem Seq.idle_acc : Seq.idle.acc = [] := rfl

variable (c : Config)

@[simp] theorem Source.advance_env : (x.advance c).env = x.env.tail := rfl
@[simp] theorem Source.advance_drawn : (x.advance c).drawn = x.drawn + 1 := rfl

/-- Under FREE mode a draw leaves `lfsr` alone (R152). -/
theorem Source.advance_lfsr_free (h : c.rngMode = .free) : (x.advance c).lfsr = x.lfsr := by
  simp [Source.advance, h]

/-- Under REF_LFSR an instance that is alone advances `lfsr` by 16 steps per draw (R155). -/
theorem Source.advance_lfsr_ref (h : c.rngMode = .refLfsr) (hn : c.nInstances ≤ 1) :
    (x.advance c).lfsr = lfsrDraw x.lfsr := by
  simp [Source.advance, peerActs, h, hn]

end Sys2Proof.Machine
end

