-- ==== Sys2Proof/Laws/Codec.lean ====
section
/-! SUPPORT. The codec is linear: bits, parities, syndrome and extraction of an exclusive-or. -/

namespace Sys2Proof.Machine

@[simp] theorem bitAt_xor (a b : Word) (p : Nat) : bitAt (a ^^^ b) p = (bitAt a p ^^ bitAt b p) := by
  simp [bitAt]

@[simp] theorem bitAt_zero (p : Nat) : bitAt 0 p = false := by simp [bitAt]

/-- Folding a parity from any start is the start xor the parity. -/
theorem foldl_xor_start (f : Nat → Bool) (ps : List Nat) (x : Bool) :
    ps.foldl (fun b p => b ^^ f p) x = (x ^^ ps.foldl (fun b p => b ^^ f p) false) := by
  induction ps generalizing x with
  | nil => simp
  | cons p ps ih => simp only [List.foldl_cons, ih (x ^^ f p), ih (false ^^ f p)]; simp

theorem xor_swap : ∀ a b c d : Bool, ((a ^^ b) ^^ (c ^^ d)) = ((a ^^ c) ^^ (b ^^ d)) := by decide

theorem xorAt_cons (a : Word) (p : Nat) (ps : List Nat) : xorAt a (p :: ps) = (bitAt a p ^^ xorAt a ps) := by
  rw [xorAt, List.foldl_cons, foldl_xor_start (bitAt a) ps (false ^^ bitAt a p), Bool.false_xor, xorAt]

@[simp] theorem xorAt_nil (a : Word) : xorAt a [] = false := rfl

/-- The parity of an exclusive-or is the exclusive-or of the parities (R13). -/
theorem xorAt_xor (a b : Word) (ps : List Nat) : xorAt (a ^^^ b) ps = (xorAt a ps ^^ xorAt b ps) := by
  induction ps with
  | nil => rfl
  | cons p ps ih => rw [xorAt_cons, xorAt_cons, xorAt_cons, ih, bitAt_xor, xor_swap]

theorem check_xor (a b : Word) (w : Nat) (ps : List Nat) : check (a ^^^ b) w ps = (check a w ps ^^ check b w ps) := by
  rw [check, xorAt_xor, bitAt_xor, xor_swap]; rfl

/-- The syndrome is linear (R123). -/
theorem syndromeOf_xor (a b : Word) : syndromeOf (a ^^^ b) = syndromeOf a ^^^ syndromeOf b := by
  simp only [syndromeOf, check_xor]
  generalize check a 8 checkSet8 = a8, check a 4 checkSet4 = a4, check a 2 checkSet2 = a2, check a 1 checkSet1 = a1
  generalize check b 8 checkSet8 = b8, check b 4 checkSet4 = b4, check b 2 checkSet2 = b2, check b 1 checkSet1 = b1
  revert a8 a4 a2 a1 b8 b4 b2 b1
  decide

/-- The overall parity is linear (R124). -/
theorem overallParity_xor (a b : Word) : overallParity (a ^^^ b) = (overallParity a ^^ overallParity b) :=
  xorAt_xor a b _

/-- Bit `i` of `pack bs` is `bs[10 - i]` (R60). -/
theorem getLsbD_pack (bs : List Bit) (i : Nat) (hi : i < 11) : (pack bs).getLsbD i = bs.getD (10 - i) false := by
  have key : ∀ (c : Bool) (d x : DataWord), (if c = true then d ||| x else d).getLsbD i
      = (d.getLsbD i || (c && x.getLsbD i)) := by
    intro c d x; cases c <;> simp
  simp only [pack, List.range_succ, List.range_zero, List.nil_append, List.cons_append, List.foldl_cons,
    List.foldl_nil, key]
  interval_cases i <;> simp

/-- `extract` reads data bit `i` at its position (R63, R129). -/
theorem getLsbD_extract (cw : Word) (i : Nat) (hi : i < 11) :
    (extract cw).getLsbD i = bitAt cw (dataPositions.getD (10 - i) 0) := by
  rw [extract, getLsbD_pack _ _ hi]
  interval_cases i <;> rfl

/-- Extraction is linear (R129). -/
theorem extract_xor (a b : Word) : extract (a ^^^ b) = extract a ^^^ extract b := by
  apply BitVec.eq_of_getLsbD_eq
  intro i hi
  rw [BitVec.getLsbD_xor, getLsbD_extract _ _ hi, getLsbD_extract _ _ hi, getLsbD_extract _ _ hi, bitAt_xor]

/-- The mask bit of a position (R61). -/
theorem getLsbD_onehot (p i : Nat) (hi : i < 16) : (onehot p).getLsbD i = decide (i = 16 - p) := by
  simp only [onehot, BitVec.getLsbD_shiftLeft, BitVec.getLsbD_one]
  by_cases h : i = 16 - p
  · subst h; simp [hi]
  · simp only [hi, decide_true, Bool.true_and, h, decide_false]
    rcases Nat.lt_or_ge i (16 - p) with hlt | hge
    · simp [hlt]
    · have : i - (16 - p) ≠ 0 := by omega
      simp [this]

/-- Setting a position changes that position alone (R61). -/
theorem bitAt_setPos (c : Word) (p q : Nat) (b : Bool) (hp : 1 ≤ p) (hp' : p ≤ 16) (hq : 1 ≤ q) (hq' : q ≤ 16) :
    bitAt (setPos c p b) q = if q = p then b else bitAt c q := by
  have hi : 16 - q < 16 := by omega
  have he : (16 - q = 16 - p) ↔ q = p := by omega
  have ho : (onehot p).getLsbD (16 - q) = decide (q = p) := by rw [getLsbD_onehot _ _ hi]; simp only [he]
  cases b
  · simp only [bitAt, setPos, Bool.false_eq_true, if_false, BitVec.getLsbD_and, BitVec.getLsbD_not, ho, hi]
    by_cases h : q = p <;> simp [h]
  · simp only [bitAt, setPos, if_true, BitVec.getLsbD_or, ho]
    by_cases h : q = p <;> simp [h]

/-- The bits of a codeword: the data at their positions, parity bits over theirs, and the overall parity (R62, R120). -/
theorem bitAt_encodeBlock (d : DataWord) :
    (bitAt (encodeBlock d) 3 = d.getLsbD 10 ∧ bitAt (encodeBlock d) 5 = d.getLsbD 9 ∧
      bitAt (encodeBlock d) 6 = d.getLsbD 8 ∧ bitAt (encodeBlock d) 7 = d.getLsbD 7 ∧
      bitAt (encodeBlock d) 9 = d.getLsbD 6 ∧ bitAt (encodeBlock d) 10 = d.getLsbD 5 ∧
      bitAt (encodeBlock d) 11 = d.getLsbD 4 ∧ bitAt (encodeBlock d) 12 = d.getLsbD 3 ∧
      bitAt (encodeBlock d) 13 = d.getLsbD 2 ∧ bitAt (encodeBlock d) 14 = d.getLsbD 1 ∧
      bitAt (encodeBlock d) 15 = d.getLsbD 0) ∧
    bitAt (encodeBlock d) 1 = xorAt (encodeBlock d) checkSet1 ∧
    bitAt (encodeBlock d) 2 = xorAt (encodeBlock d) checkSet2 ∧
    bitAt (encodeBlock d) 4 = xorAt (encodeBlock d) checkSet4 ∧
    bitAt (encodeBlock d) 8 = xorAt (encodeBlock d) checkSet8 ∧
    bitAt (encodeBlock d) 16 = xorAt (encodeBlock d) positions1to15 := by
  simp [encodeBlock, withChecks, place, dataPositions, unpack, List.range_succ, xorAt_cons, bitAt_setPos, checkSet1,
    checkSet2, checkSet4, checkSet8, positions1to15]

/-- A codeword of the code passes all checks, and its data bits are the data (R120). -/
theorem encodeBlock_facts (d : DataWord) :
    syndromeOf (encodeBlock d) = 0 ∧ overallParity (encodeBlock d) = false ∧ extract (encodeBlock d) = d := by
  obtain ⟨⟨h3, h5, h6, h7, h9, h10, h11, h12, h13, h14, h15⟩, h1, h2, h4, h8, h16⟩ := bitAt_encodeBlock d
  refine ⟨?_, ?_, ?_⟩
  · simp only [syndromeOf, check, h1, h2, h4, h8, Bool.xor_self]; rfl
  · have : overallParity (encodeBlock d) = (xorAt (encodeBlock d) positions1to15 ^^ bitAt (encodeBlock d) 16) := by
      simp [overallParity, positions1to15, xorAt_cons]
    rw [this, h16, Bool.xor_self]
  · apply BitVec.eq_of_getLsbD_eq
    intro i hi
    rw [getLsbD_extract _ _ hi]
    interval_cases i <;> simpa [dataPositions]

/-- What the decoder does with a codeword xor an error pattern depends on the pattern alone. -/
theorem decodeBlock_encodeBlock_xor (d : DataWord) (m : Word) :
    decodeBlock (encodeBlock d ^^^ m) = (decodeBlock m).map (d ^^^ ·) := by
  obtain ⟨hs, ho, he⟩ := encodeBlock_facts d
  have hsyn : syndromeOf (encodeBlock d ^^^ m) = syndromeOf m := by rw [syndromeOf_xor, hs]; simp
  have hov : overallParity (encodeBlock d ^^^ m) = overallParity m := by rw [overallParity_xor, ho]; simp
  have hv : verdictOf (encodeBlock d ^^^ m) = verdictOf m := by simp only [verdictOf, hsyn, hov]
  simp only [decodeBlock, hv, hsyn]
  cases verdictOf m <;> simp [extract_xor, he, BitVec.xor_assoc]

/-- The verdict of a codeword xor an error pattern is that of the pattern. -/
theorem verdictOf_encodeBlock_xor (d : DataWord) (m : Word) : verdictOf (encodeBlock d ^^^ m) = verdictOf m := by
  obtain ⟨hs, ho, -⟩ := encodeBlock_facts d
  simp only [verdictOf, syndromeOf_xor, overallParity_xor, hs, ho]
  simp

end Sys2Proof.Machine
end

