-- ==== Sys2Proof/Laws/Encoding.lean ====
section
/-! SUPPORT. The fields of a command word and of a packed one (R71, R72). -/

namespace Sys2Proof

variable (op : BitVec 4) (a b : Word)

/-- `OP` of a packed word (R71). -/
@[simp] theorem opField_packCmd : opField (packCmd op a b) = op := by
  apply BitVec.eq_of_getLsbD_eq
  intro i hi
  simp only [opField, packCmd, BitVec.getLsbD_extractLsb', BitVec.getLsbD_append]
  simp [hi, show ¬ 32 + i < 16 by omega, show ¬ 32 + i - 16 < 16 by omega, show 32 + i - 16 - 16 = i by omega]

/-- `A` of a packed word (R71). -/
@[simp] theorem aField_packCmd : aField (packCmd op a b) = a := by
  apply BitVec.eq_of_getLsbD_eq
  intro i hi
  simp only [aField, packCmd, BitVec.getLsbD_extractLsb', BitVec.getLsbD_append]
  simp [hi, show ¬ 16 + i < 16 by omega]

/-- `B` of a packed word (R71). -/
@[simp] theorem bField_packCmd : bField (packCmd op a b) = b := by
  apply BitVec.eq_of_getLsbD_eq
  intro i hi
  simp only [bField, packCmd, BitVec.getLsbD_extractLsb', BitVec.getLsbD_append]
  simp [hi]

/-- The data word of a packed word (R60, R72). -/
@[simp] theorem dField_packCmd : dField (packCmd op a b) = a.extractLsb' 0 11 := by
  rw [dField, aField_packCmd]

/-- A data word zero-extended and cut back is itself (R60). -/
@[simp] theorem extractLsb'_zeroExtend (d : DataWord) : (d.zeroExtend 16).extractLsb' 0 11 = d := by
  apply BitVec.eq_of_getLsbD_eq
  intro i hi
  simp [hi]
  omega

/-- A command word is its three fields packed (R71). -/
theorem packCmd_fields (w : CmdWord) : packCmd (opField w) (aField w) (bField w) = w := by
  apply BitVec.eq_of_getLsbD_eq
  intro i hi
  simp only [opField, aField, bField, packCmd, BitVec.getLsbD_extractLsb', BitVec.getLsbD_append]
  by_cases h1 : i < 16
  · simp [h1]
  · by_cases h2 : i - 16 < 16
    · simp only [h1, h2, if_true, if_false, decide_true, Bool.true_and]; congr 1; omega
    · simp only [h1, h2, if_false, show i - 16 - 16 < 4 by omega, decide_true, Bool.true_and]; congr 1; omega

/-- Masking a packed word masks its fields. -/
theorem packCmd_and (op' : BitVec 4) (a' b' : Word) :
    packCmd op a b &&& packCmd op' a' b' = packCmd (op &&& op') (a &&& a') (b &&& b') := by
  apply BitVec.eq_of_getLsbD_eq
  intro i _
  simp only [packCmd, BitVec.getLsbD_and, BitVec.getLsbD_append]
  by_cases h1 : i < 16 <;> by_cases h2 : i - 16 < 16 <;> simp only [h1, h2, if_true, if_false]

end Sys2Proof
end

