-- ==== Sys2Proof/Laws/Ops.lean ====
section
/-! SUPPORT. What the shared operations of the commands can do, said once: reading the operand and guarding draws. -/

namespace Sys2Proof.Machine

variable {s t : State} {o : Out}

theorem tooLong_eq_false {c : Config} {n : Nat} : tooLong c n = false ↔ n ≤ c.maxChars := by
  simp [tooLong]

theorem tooLong_eq_true {c : Config} {n : Nat} : tooLong c n = true ↔ c.maxChars < n := by
  simp [tooLong]

/-- A Text operand of legal length is read. -/
theorem withText_eq {k : List Symbol → Out} {x : List Symbol} (hs : s.sin = some (.text x))
    (hl : x.length ≤ s.cfg.maxChars) : s.withText k = k x := by
  simp [State.withText, hs, tooLong_eq_false.2 hl]

/-- A Bits operand of legal length is read. -/
theorem withBits_eq {k : List Bit → Out} {x : List Bit} (hs : s.sin = some (.bits x))
    (hl : x.length ≤ s.cfg.maxChars) : s.withBits k = k x := by
  simp [State.withBits, hs, tooLong_eq_false.2 hl]

/-- A Blocks operand of legal length is read. -/
theorem withBlocks_eq {k : List DataWord → Out} {x : List DataWord} (hs : s.sin = some (.blocks x))
    (hl : x.length ≤ s.cfg.maxChars) : s.withBlocks k = k x := by
  simp [State.withBlocks, hs, tooLong_eq_false.2 hl]

/-- Draws that R157 gives a meaning are not refused. -/
theorem withDraws_eq (h : drawsAllowed s.cfg = true) : s.withDraws o = o := by
  simp [State.withDraws, h]

/-- Everything that reading a Text operand can do. -/
theorem withText_cases (s : State) (k : List Symbol → Out) :
    (∃ x, s.sin = some (.text x) ∧ x.length ≤ s.cfg.maxChars ∧ s.withText k = k x) ∨
    (∃ x, s.sin = some (.text x) ∧ s.cfg.maxChars < x.length ∧ s.withText k = .refused .tooLong) ∨
    ((∀ x, s.sin ≠ some (.text x)) ∧ s.withText k = .refused .operandMismatch) := by
  rcases h : s.sin with _ | v
  · exact .inr (.inr ⟨by simp, by simp [State.withText, h]⟩)
  · cases v with
    | text x =>
      rcases Nat.lt_or_ge s.cfg.maxChars x.length with hl | hl
      · exact .inr (.inl ⟨x, rfl, hl, by simp [State.withText, h, tooLong_eq_true.2 hl]⟩)
      · exact .inl ⟨x, rfl, hl, withText_eq h hl⟩
    | bits x => exact .inr (.inr ⟨by simp, by simp [State.withText, h]⟩)
    | blocks x => exact .inr (.inr ⟨by simp, by simp [State.withText, h]⟩)

/-- Everything that reading a Bits operand can do. -/
theorem withBits_cases (s : State) (k : List Bit → Out) :
    (∃ x, s.sin = some (.bits x) ∧ x.length ≤ s.cfg.maxChars ∧ s.withBits k = k x) ∨
    (∃ x, s.sin = some (.bits x) ∧ s.cfg.maxChars < x.length ∧ s.withBits k = .refused .tooLong) ∨
    ((∀ x, s.sin ≠ some (.bits x)) ∧ s.withBits k = .refused .operandMismatch) := by
  rcases h : s.sin with _ | v
  · exact .inr (.inr ⟨by simp, by simp [State.withBits, h]⟩)
  · cases v with
    | bits x =>
      rcases Nat.lt_or_ge s.cfg.maxChars x.length with hl | hl
      · exact .inr (.inl ⟨x, rfl, hl, by simp [State.withBits, h, tooLong_eq_true.2 hl]⟩)
      · exact .inl ⟨x, rfl, hl, withBits_eq h hl⟩
    | text x => exact .inr (.inr ⟨by simp, by simp [State.withBits, h]⟩)
    | blocks x => exact .inr (.inr ⟨by simp, by simp [State.withBits, h]⟩)

/-- Everything that reading a Blocks operand can do. -/
theorem withBlocks_cases (s : State) (k : List DataWord → Out) :
    (∃ x, s.sin = some (.blocks x) ∧ x.length ≤ s.cfg.maxChars ∧ s.withBlocks k = k x) ∨
    (∃ x, s.sin = some (.blocks x) ∧ s.cfg.maxChars < x.length ∧ s.withBlocks k = .refused .tooLong) ∨
    ((∀ x, s.sin ≠ some (.blocks x)) ∧ s.withBlocks k = .refused .operandMismatch) := by
  rcases h : s.sin with _ | v
  · exact .inr (.inr ⟨by simp, by simp [State.withBlocks, h]⟩)
  · cases v with
    | blocks x =>
      rcases Nat.lt_or_ge s.cfg.maxChars x.length with hl | hl
      · exact .inr (.inl ⟨x, rfl, hl, by simp [State.withBlocks, h, tooLong_eq_true.2 hl]⟩)
      · exact .inl ⟨x, rfl, hl, withBlocks_eq h hl⟩
    | text x => exact .inr (.inr ⟨by simp, by simp [State.withBlocks, h]⟩)
    | bits x => exact .inr (.inr ⟨by simp, by simp [State.withBlocks, h]⟩)

/-- Everything the guard of a drawing command can do. -/
theorem withDraws_cases (s : State) (o : Out) :
    (drawsAllowed s.cfg = true ∧ s.withDraws o = o) ∨
    (drawsAllowed s.cfg = false ∧ s.withDraws o = .refused .badProbability) := by
  cases h : drawsAllowed s.cfg <;> simp [State.withDraws, h]

/-- Everything one step can do in IDLE: run the issued command, take a reset or a peer's act, or stay. -/
theorem step_idle_cases (h : s.seq.phase = .idle) :
    (s.host = [] ∧ step s = .next s) ∨
    (∃ w v rest, s.host = .command w v :: rest ∧ step s = exec (decodeWord w) (s.accept v rest)) ∨
    (∃ rest, s.host = .reset :: rest ∧ step s = .next { s.resetEffect with host := rest }) ∨
    (∃ w v rest, s.host = .resetDuring w v :: rest ∧ step s = .refused .resetInCommand) ∨
    (∃ a rest, s.host = .peer a :: rest ∧ step s = .next (s.peerEvent a rest)) := by
  rcases hh : s.host with _ | ⟨e, rest⟩
  · exact .inl ⟨rfl, by simp [step, nextEvent, idleEvent, h, hh]⟩
  · cases e with
    | command w v => exact .inr (.inl ⟨w, v, rest, rfl, by simp [step, nextEvent, idleEvent, h, hh]⟩)
    | reset => exact .inr (.inr (.inl ⟨rest, rfl, by simp [step, nextEvent, idleEvent, h, hh]⟩))
    | resetDuring w v =>
      exact .inr (.inr (.inr (.inl ⟨w, v, rest, rfl, by simp [step, nextEvent, idleEvent, h, hh]⟩)))
    | peer a => exact .inr (.inr (.inr (.inr ⟨a, rest, rfl, by simp [step, nextEvent, idleEvent, h, hh]⟩)))

/-- Out of IDLE, the next event is what `busyEvent` says. -/
theorem nextEvent_busy (h : s.seq.phase ≠ .idle) : nextEvent s = busyEvent s := by
  unfold nextEvent
  split <;> simp_all

/-- Everything one step can do out of IDLE: refuse a reset, take a peer's act, or move the sequencer. -/
theorem step_busy_cases (h : s.seq.phase ≠ .idle) :
    (∃ rest, s.host = .reset :: rest ∧ step s = .refused .resetInCommand) ∨
    (∃ a rest, s.host = .peer a :: rest ∧ step s = .next (s.peerEvent a rest)) ∨
    step s = s.withDraws (.next (seqStep s)) := by
  rcases hh : s.host with _ | ⟨e, rest⟩
  · exact .inr (.inr (by simp [step, nextEvent_busy h, busyEvent, hh]))
  · cases e with
    | command w v => exact .inr (.inr (by simp [step, nextEvent_busy h, busyEvent, hh]))
    | reset => exact .inl ⟨rest, rfl, by simp [step, nextEvent_busy h, busyEvent, hh]⟩
    | resetDuring w v => exact .inr (.inr (by simp [step, nextEvent_busy h, busyEvent, hh]))
    | peer a => exact .inr (.inl ⟨a, rest, rfl, by simp [step, nextEvent_busy h, busyEvent, hh]⟩)

end Sys2Proof.Machine
end

