-- ==== Sys2Proof/Laws/Exec.lean ====
section
/-! SUPPORT. What `exec` answers for each command whose operand and configuration are accepted. -/

namespace Sys2Proof.Machine

variable {s : State}

theorem exec_tobits {t : List Symbol} (hs : s.sin = some (.text t)) (hl : t.length ≤ s.cfg.maxChars) :
    exec .tobits s = .next (s.completeOk { sout := some (.bits (textToBits t)) }) := by
  rw [exec, execTobits, withText_eq hs hl]

theorem exec_totext {b : List Bit} (hs : s.sin = some (.bits b)) (hl : b.length ≤ s.cfg.maxChars) :
    exec .totext s = .next (s.completeOk { sout := some (.text (bitsToText b)) }) := by
  rw [exec, execTotext, withBits_eq hs hl]

theorem exec_split {b : List Bit} (hs : s.sin = some (.bits b)) (hl : b.length ≤ s.cfg.maxChars) :
    exec .split s = .next (s.completeOk { sout := some (.blocks (splitBits b)) }) := by
  rw [exec, execSplit, withBits_eq hs hl]

theorem exec_reassemble {d : List DataWord} (hs : s.sin = some (.blocks d)) (hl : d.length ≤ s.cfg.maxChars) :
    exec .reassemble s = .next (s.completeOk { sout := some (.bits (joinBlocks d)) }) := by
  rw [exec, execReassemble, withBlocks_eq hs hl]

theorem exec_encode (d : DataWord) : exec (.encode d) s = .next (s.completeOk { res := some (encodeBlock d) }) := rfl

/-- DECODE of a word that is no double error. -/
theorem exec_decode_some {cw : Word} {d : DataWord} (h : decodeBlock cw = some d) :
    exec (.decode cw) s = .next (s.completeOk { diagnosis cw with res := some (dataToWord d) }) := by
  rw [exec, execDecode, h]

/-- DECODE of a double error. -/
theorem exec_decode_none {cw : Word} (h : decodeBlock cw = none) :
    exec (.decode cw) s = .next (s.raise .doubleErrorDetected (diagnosis cw)) := by
  rw [exec, execDecode, h]

theorem exec_syndrome (cw : Word) : exec (.syndrome cw) s = .next (s.completeOk (diagnosis cw)) := rfl

theorem exec_corrupt (cw : Word) (h : drawsAllowed s.cfg = true) :
    exec (.corrupt cw) s = .next ((s.withSrc (injectorMask s.cfg s.src).2).completeOk
      { res := some (cw ^^^ (injectorMask s.cfg s.src).1), emask := some (injectorMask s.cfg s.src).1 }) := by
  rw [exec, execCorrupt, withDraws_eq h]

theorem exec_loss (h : drawsAllowed s.cfg = true) :
    exec .loss s = .next ((s.withSrc (s.src.advance s.cfg)).completeOk
      { res := some (bitToWord (s.src.bit s.cfg .lossd)) }) := by
  rw [exec, execLoss, withDraws_eq h]

theorem exec_process {t : List Symbol} (hs : s.sin = some (.text t)) (hl : t.length ≤ s.cfg.maxChars)
    (h : drawsAllowed s.cfg = true) : exec .process s = .next (processText t s) := by
  rw [exec, execProcess, withText_eq hs hl, withDraws_eq h]

end Sys2Proof.Machine
end

