-- ==== Sys2Proof/Laws/PerInstr.lean ====
section
/-! SUPPORT. Families of facts about every command as a term: one lemma per constructor of `Instr`. -/

namespace Sys2Proof.Laws.OpcodeField

/-- The word of a command holds the command's opcode in `CMD[35:32]` (R71, R73). -/
def Statement (i : Instr) : Prop := opField (encode i) = i.opcode

theorem tobits : Statement .tobits := opField_packCmd _ _ _
theorem totext : Statement .totext := opField_packCmd _ _ _
theorem split : Statement .split := opField_packCmd _ _ _
theorem reassemble : Statement .reassemble := opField_packCmd _ _ _
theorem encode (d : DataWord) : Statement (.encode d) := opField_packCmd _ _ _
theorem decode (cw : Word) : Statement (.decode cw) := opField_packCmd _ _ _
theorem syndrome (cw : Word) : Statement (.syndrome cw) := opField_packCmd _ _ _
theorem corrupt (cw : Word) : Statement (.corrupt cw) := opField_packCmd _ _ _
theorem flip (cw m : Word) : Statement (.flip cw m) := opField_packCmd _ _ _
theorem loss : Statement .loss := opField_packCmd _ _ _
theorem process : Statement .process := opField_packCmd _ _ _
theorem seed (a : Word) : Statement (.seed a) := opField_packCmd _ _ _
theorem reserved0 : Statement .reserved0 := opField_packCmd _ _ _
theorem reservedD : Statement .reservedD := opField_packCmd _ _ _
theorem reservedE : Statement .reservedE := opField_packCmd _ _ _
theorem reservedF : Statement .reservedF := opField_packCmd _ _ _
theorem flippos (cw : Word) (p : Nat) (q : Option Nat) : Statement (.flippos cw p q) := opField_packCmd _ _ _

end Sys2Proof.Laws.OpcodeField
end

