-- ==== Sys2Proof/Laws/Random.lean ====
section
/-! SUPPORT. What the random source and the injector can do. -/

namespace Sys2Proof.Machine

theorem lfsrSteps_add (m n : Nat) (s : Word) : lfsrSteps (m + n) s = lfsrSteps n (lfsrSteps m s) := by
  induction m generalizing s with
  | zero => simp [lfsrSteps]
  | succ m ih => rw [Nat.succ_add, lfsrSteps, ih]; rfl

/-- The step maps nonzero values to nonzero values (R28). -/
theorem lfsrStep_ne_zero {s : Word} (h : s ≠ 0) : lfsrStep s ≠ 0 := by
  intro h0
  apply h
  have hb : ∀ i, (lfsrStep s).getLsbD i = false := by intro i; rw [h0]; simp
  have h15 := hb 15
  by_cases hs : s.getLsbD 0 = true
  · simp [lfsrStep, hs] at h15
  · rw [lfsrStep, if_neg hs] at hb
    apply BitVec.eq_of_getLsbD_eq
    intro i _
    cases i with
    | zero => simpa using hs
    | succ i => have := hb i; rw [BitVec.getLsbD_ushiftRight, Nat.add_comm] at this; simpa using this

theorem lfsrSteps_ne_zero (n : Nat) {s : Word} (h : s ≠ 0) : lfsrSteps n s ≠ 0 := by
  induction n generalizing s with
  | zero => exact h
  | succ n ih => exact ih (lfsrStep_ne_zero h)

/-- No act of another instance leaves 0 in the shared register (R28, R162, R231). -/
theorem peerActs_ne_zero {c : Config} (hc : c.lfsrReset ≠ 0) (acts : List PeerAct) {l : Word} (h : l ≠ 0) :
    peerActs c l acts ≠ 0 := by
  unfold peerActs
  split
  · exact h
  · clear * - hc h
    induction acts generalizing l with
    | nil => exact h
    | cons a as ih =>
      refine ih ?_
      cases a with
      | draw =>
        cases hm : c.rngMode with
        | free => simpa only [peerAct, hm] using h
        | refLfsr => simpa only [peerAct, hm, lfsrDraw] using lfsrSteps_ne_zero 16 h
      | seed x =>
        by_cases hx : x = 0
        · simpa only [peerAct, if_pos hx] using h
        · simpa only [peerAct, if_neg hx] using hx
      | reset => exact hc

/-- No draw leaves 0 in `lfsr` (R28, R155). -/
theorem advance_lfsr_ne_zero {c : Config} (hc : c.lfsrReset ≠ 0) {r : Source} (h : r.lfsr ≠ 0) :
    (r.advance c).lfsr ≠ 0 := by
  unfold Source.advance
  cases c.rngMode with
  | free => exact h
  | refLfsr => exact lfsrSteps_ne_zero 16 (peerActs_ne_zero hc _ h)

/-- A position drawn is in 1..15 (R150, R157). -/
theorem pos_range (c : Config) (r : Source) : 1 ≤ r.pos c ∧ r.pos c ≤ 15 := by
  unfold Source.pos
  split
  · have := r.next.pos.isLt; omega
  · unfold posFrom; omega

/-- Everything the injector can do: no flip with one draw, one flip with three, two with four (R158). -/
theorem injectorMask_cases (c : Config) (r : Source) :
    injectorMask c r = (0, r.advance c) ∨
    (∃ p, 1 ≤ p ∧ p ≤ 15 ∧ injectorMask c r = (onehot p, ((r.advance c).advance c).advance c)) ∨
    (∃ p q, 1 ≤ p ∧ p ≤ 15 ∧ 1 ≤ q ∧ q ≤ 15 ∧
      injectorMask c r = (onehot p ^^^ onehot q, (((r.advance c).advance c).advance c).advance c)) := by
  by_cases h1 : r.bit c .eventd = true
  · by_cases h2 : (r.advance c).bit c .doubled = true
    · refine .inr (.inr ⟨((r.advance c).advance c).pos c, (((r.advance c).advance c).advance c).pos c,
        (pos_range c _).1, (pos_range c _).2, (pos_range c _).1, (pos_range c _).2, ?_⟩)
      simp [injectorMask, h1, h2]
    · refine .inr (.inl ⟨((r.advance c).advance c).pos c, (pos_range c _).1, (pos_range c _).2, ?_⟩)
      simp [injectorMask, h1, h2]
  · exact .inl (by simp [injectorMask, h1])

/-- The injector flips nothing, one of positions 1..15, or two of them. -/
theorem injectorMask_light (c : Config) (r : Source) :
    (injectorMask c r).1 = 0 ∨ (∃ p, 1 ≤ p ∧ p ≤ 15 ∧ (injectorMask c r).1 = onehot p) ∨
    (∃ p q, 1 ≤ p ∧ p ≤ 15 ∧ 1 ≤ q ∧ q ≤ 15 ∧ (injectorMask c r).1 = onehot p ^^^ onehot q) := by
  rcases injectorMask_cases c r with h | ⟨p, h1, h2, h⟩ | ⟨p, q, h1, h2, h3, h4, h⟩
  · exact .inl (by rw [h])
  · exact .inr (.inl ⟨p, h1, h2, by rw [h]⟩)
  · exact .inr (.inr ⟨p, q, h1, h2, h3, h4, by rw [h]⟩)

/-- The injector keeps `lfsr` nonzero (R28). -/
theorem injectorMask_lfsr_ne_zero {c : Config} (hc : c.lfsrReset ≠ 0) {r : Source} (h : r.lfsr ≠ 0) :
    (injectorMask c r).2.lfsr ≠ 0 := by
  have ha := fun {x : Source} => advance_lfsr_ne_zero hc (r := x)
  rcases injectorMask_cases c r with e | ⟨p, -, -, e⟩ | ⟨p, q, -, -, -, -, e⟩
  · rw [e]; exact ha h
  · rw [e]; exact ha (ha (ha h))
  · rw [e]; exact ha (ha (ha (ha h)))

/-- The decoder on error patterns of at most two of positions 1..16: none or one is corrected to no change of the data,
two are detected. -/
theorem decodeBlock_patterns :
    decodeBlock 0 = some 0 ∧ ∀ p q : Fin 16,
      decodeBlock (onehot (p.val + 1)) = some 0 ∧
      decodeBlock (onehot (p.val + 1) ^^^ onehot (q.val + 1)) = if p = q then some 0 else none := by
  decide +kernel

/-- One block of the pipeline gives back its data or a double error, never other data (R181). -/
theorem processBlock_data (c : Config) (d : DataWord) (r : Source) :
    (processBlock c d r).1 = some d ∨ (processBlock c d r).1 = none := by
  obtain ⟨h0, h⟩ := decodeBlock_patterns
  unfold processBlock
  rw [decodeBlock_encodeBlock_xor]
  rcases injectorMask_light c r with e | ⟨p, h1, h2, e⟩ | ⟨p, q, h1, h2, h3, h4, e⟩
  · left; rw [e, h0]; simp
  · left
    have := (h ⟨p - 1, by omega⟩ ⟨p - 1, by omega⟩).1
    simp only [Nat.sub_add_cancel h1] at this
    simp [e, this]
  · have := (h ⟨p - 1, by omega⟩ ⟨q - 1, by omega⟩).2
    simp only [Nat.sub_add_cancel h1, Nat.sub_add_cancel h3] at this
    rw [e, this]
    split
    · left; simp
    · right; rfl

end Sys2Proof.Machine
end

