-- ==== Sys2Proof/Laws/Segment.lean ====
section
/-! SUPPORT. Converter and segmenter, element by element. -/

namespace Sys2Proof.Machine

@[simp] theorem length_textToBits (t : List Symbol) : (textToBits t).length = t.length := by simp [textToBits]
@[simp] theorem length_bitsToText (b : List Bit) : (bitsToText b).length = b.length := by simp [bitsToText]

/-- A bit written as a character reads back (R102). -/
@[simp] theorem symbolToBit_bitToSymbol (b : Bit) : symbolToBit (bitToSymbol b) = b := by cases b <;> rfl

/-- A character read as a bit is written back as itself if it is `'1'`, else as `'0'` (R102). -/
theorem bitToSymbol_symbolToBit (c : Symbol) : bitToSymbol (symbolToBit c) = if c = charOne then charOne else charZero := by
  by_cases h : c = charOne <;> simp [bitToSymbol, symbolToBit, h]

@[simp] theorem length_unpack (d : DataWord) : (unpack d).length = 11 := by simp [unpack]

theorem getElem?_unpack (d : DataWord) (j : Nat) : (unpack d)[j]? = if j < 11 then some (d.getLsbD (10 - j)) else none := by
  by_cases h : j < 11 <;> simp [unpack, h]

/-- `pack` undoes `unpack` (R60). -/
@[simp] theorem pack_unpack (d : DataWord) : pack (unpack d) = d := by
  apply BitVec.eq_of_getLsbD_eq
  intro i hi
  rw [getLsbD_pack _ _ hi, List.getD_eq_getElem?_getD, getElem?_unpack, if_pos (by omega)]
  simp [show 10 - (10 - i) = i by omega]

/-- `unpack` undoes `pack` on 11 bits (R60). -/
theorem unpack_pack (bs : List Bit) (h : bs.length = 11) : unpack (pack bs) = bs := by
  apply List.ext_getElem?
  intro j
  rw [getElem?_unpack]
  by_cases hj : j < 11
  · rw [if_pos hj, getLsbD_pack _ _ (by omega), List.getD_eq_getElem?_getD, show 10 - (10 - j) = j by omega,
      List.getElem?_eq_getElem (by omega)]
    rfl
  · rw [if_neg hj, List.getElem?_eq_none (by omega)]

@[simp] theorem length_splitBits (bs : List Bit) : (splitBits bs).length = blockCount bs.length := by simp [splitBits]

theorem getElem?_splitBits (bs : List Bit) (b : Nat) :
    (splitBits bs)[b]? = if b < blockCount bs.length then some (blockOf bs b) else none := by
  by_cases h : b < blockCount bs.length <;> simp [splitBits, h]

/-- Bit `i` of block `b`: a payload bit, or padding (R43, R103). -/
theorem getLsbD_blockOf (bs : List Bit) (b i : Nat) (hi : i < 11) :
    (blockOf bs b).getLsbD i = bs.getD (11 * b + (10 - i)) false := by
  rw [blockOf, getLsbD_pack _ _ hi]
  simp only [List.getD_eq_getElem?_getD, List.getElem?_append, List.getElem?_take, List.getElem?_drop, List.length_take,
    List.length_drop, zeros, List.getElem?_replicate, if_pos (show 10 - i < 11 by omega)]
  split
  · rfl
  · rw [List.getElem?_eq_none (by omega)]
    split <;> rfl

@[simp] theorem joinBlocks_nil : joinBlocks [] = [] := rfl
@[simp] theorem joinBlocks_cons (d : DataWord) (ds : List DataWord) : joinBlocks (d :: ds) = unpack d ++ joinBlocks ds := rfl

@[simp] theorem length_joinBlocks (ds : List DataWord) : (joinBlocks ds).length = 11 * ds.length := by
  induction ds with
  | nil => rfl
  | cons d ds ih => rw [joinBlocks_cons, List.length_append, ih, length_unpack, List.length_cons]; omega

/-- Bit `j` of the joined blocks (R43, R105). -/
theorem getElem?_joinBlocks (ds : List DataWord) (j : Nat) :
    (joinBlocks ds)[j]? = ds[j / 11]?.map fun d => d.getLsbD (10 - j % 11) := by
  induction ds generalizing j with
  | nil => simp
  | cons d ds ih =>
    rw [joinBlocks_cons, List.getElem?_append, length_unpack, getElem?_unpack]
    by_cases hj : j < 11
    · rw [if_pos hj, if_pos hj, Nat.div_eq_of_lt hj, Nat.mod_eq_of_lt hj]; rfl
    · have h1 : j / 11 = (j - 11) / 11 + 1 := by omega
      have h2 : (j - 11) % 11 = j % 11 := by omega
      rw [if_neg hj, ih, h1, h2, List.getElem?_cons_succ]

end Sys2Proof.Machine
end

