-- ==== Sys2Proof/Laws/Pipeline.lean ====
section
/-! SUPPORT. The block loop of PROCESS: what it gives, and that it keeps `lfsr` nonzero. -/

namespace Sys2Proof.Machine

variable (c : Config)

@[simp] theorem processBlock_src (d : DataWord) (r : Source) : (processBlock c d r).2 = (injectorMask c r).2 := rfl

theorem processBlocks_cons_none {d : DataWord} {r : Source} (h : (processBlock c d r).1 = none)
    (ds acc : List DataWord) : processBlocks c (d :: ds) acc r = (none, (injectorMask c r).2) := by
  simp [processBlocks, h]

theorem processBlocks_cons_some {d x : DataWord} {r : Source} (h : (processBlock c d r).1 = some x)
    (ds acc : List DataWord) :
    processBlocks c (d :: ds) acc r = processBlocks c ds (acc ++ [x]) (injectorMask c r).2 := by
  simp [processBlocks, h]

/-- The block loop gives back the blocks, or ends with a double error (R181, R183). -/
theorem processBlocks_data (ds acc : List DataWord) (r : Source) :
    (processBlocks c ds acc r).1 = some (acc ++ ds) ∨ (processBlocks c ds acc r).1 = none := by
  induction ds generalizing acc r with
  | nil => left; simp [processBlocks]
  | cons d ds ih =>
    rcases processBlock_data c d r with h | h
    · rw [processBlocks_cons_some c h]
      simpa using ih (acc ++ [d]) (injectorMask c r).2
    · right; rw [processBlocks_cons_none c h]

/-- The block loop keeps `lfsr` nonzero (R28). -/
theorem processBlocks_lfsr_ne_zero {c : Config} (hc : c.lfsrReset ≠ 0) (ds acc : List DataWord) {r : Source}
    (h : r.lfsr ≠ 0) : (processBlocks c ds acc r).2.lfsr ≠ 0 := by
  induction ds generalizing acc r with
  | nil => exact h
  | cons d ds ih =>
    have hi := injectorMask_lfsr_ne_zero hc h
    cases hb : (processBlock c d r).1 with
    | none => rw [processBlocks_cons_none c hb]; exact hi
    | some x => rw [processBlocks_cons_some c hb]; exact ih _ hi

/-- More blocks change nothing after a double error (R183). -/
theorem processBlocks_append_none (ds more acc : List DataWord) (r : Source)
    (h : (processBlocks c ds acc r).1 = none) : processBlocks c (ds ++ more) acc r = processBlocks c ds acc r := by
  induction ds generalizing acc r with
  | nil => simp [processBlocks] at h
  | cons d ds ih =>
    cases hb : (processBlock c d r).1 with
    | none => rw [List.cons_append, processBlocks_cons_none c hb, processBlocks_cons_none c hb]
    | some x =>
      rw [List.cons_append, processBlocks_cons_some c hb, processBlocks_cons_some c hb]
      rw [processBlocks_cons_some c hb] at h
      exact ih _ _ h

/-- Everything PROCESS can do on a payload: lose it, fail in a block, or deliver its own blocks (R181). -/
theorem processText_cases (t : List Symbol) (s : State) :
    (s.src.bit s.cfg .lossd = true ∧
      processText t s = (s.withSrc (s.src.advance s.cfg)).raise .simulatedLoss {}) ∨
    (s.src.bit s.cfg .lossd = false ∧ ∃ r,
      processBlocks s.cfg (splitBits (textToBits t)) [] (s.src.advance s.cfg) = (none, r) ∧
      processText t s = (s.withSrc r).raise .doubleErrorDetected {}) ∨
    (s.src.bit s.cfg .lossd = false ∧ ∃ r,
      processBlocks s.cfg (splitBits (textToBits t)) [] (s.src.advance s.cfg) = (some (splitBits (textToBits t)), r) ∧
      processText t s = (s.withSrc r).completeOk
        { sout := some (.text (outputText s.cfg (textToBits t) (splitBits (textToBits t)))) }) := by
  cases hl : s.src.bit s.cfg .lossd with
  | true => left; exact ⟨rfl, by simp [processText, hl]⟩
  | false =>
    right
    have hd := processBlocks_data s.cfg (splitBits (textToBits t)) [] (s.src.advance s.cfg)
    generalize hp : processBlocks s.cfg (splitBits (textToBits t)) [] (s.src.advance s.cfg) = o at hd
    obtain ⟨o, r⟩ := o
    rcases hd with h | h
    · right
      simp only [List.nil_append] at h
      subst h
      exact ⟨rfl, r, rfl, by simp [processText, hl, hp]⟩
    · left
      simp only at h
      subst h
      exact ⟨rfl, r, rfl, by simp [processText, hl, hp]⟩

end Sys2Proof.Machine
end

