-- ==== Sys2Proof/Tests/Slice0.lean ====
section
/-! SUPPORT. Small tests, their expected values taken from spec/ (95_test_vectors, the examples of the rules, the
encoding tables), and a witness for the hypotheses of each statement. -/

namespace Sys2Proof.Tests

open Sys2Proof.Machine Sys2Proof.Slice0

/-! Helpers: small states and what an outcome shows. -/

def cfgOf (mode : RngMode) (pad : PadMode) : Config :=
  ⟨mode, 0xACE1, pad, 12, 1, ⟨1, 100⟩, ⟨7, 100⟩, ⟨5, 100⟩⟩

def freeKeep : Config := cfgOf .free .keepPadding
def refKeep : Config := cfgOf .refLfsr .keepPadding

def mk (c : Config) (l : Word) (env : List DrawEnv) (sin : Option SeqVal) : State :=
  ⟨c, ⟨l, env, 0⟩, Seq.idle, Result.empty, sin, []⟩

def plain : State := mk freeKeep 0xACE1 [] none

/-- The environment answers a Bit draw with `b`. -/
def b (x : Bool) : DrawEnv := ⟨x, 0, []⟩

/-- The environment answers a POSD draw with `n + 1`. -/
def p (n : Fin 15) : DrawEnv := ⟨false, n, []⟩

def resultOf : Out → Option Result
  | .next s => some s.result
  | .fault _ => none
  | .refused _ => none

def srcOf : Out → Option (Word × Nat)
  | .next s => some (s.lfsr, s.src.drawn)
  | .fault _ => none
  | .refused _ => none

def refusalOf : Out → Option Refusal
  | .next _ => none
  | .fault _ => none
  | .refused r => some r

def text (cs : List Char) : List Symbol := textSymbols cs

/-- The payload of vectors P-F5 and P-L4 to P-L8: `10110011101`. -/
def payload : List Symbol := text ['1', '0', '1', '1', '0', '0', '1', '1', '1', '0', '1']

/-! Ill-formed terms, one for each check (R74, R77, R81). -/

theorem test_wf_refuses_seed_zero : (Instr.seed 0).wf = false := by decide
theorem test_wf_refuses_reserved : [Instr.reserved0, .reservedD, .reservedE, .reservedF].all (fun i => !i.wf) = true := by
  decide
theorem test_wf_refuses_position_0 : (Instr.flippos 0xB400 0 none).wf = false := by decide
theorem test_wf_refuses_position_17 : (Instr.flippos 0xB400 17 none).wf = false := by decide
theorem test_wf_refuses_second_position : (Instr.flippos 0xB400 16 (some 17)).wf = false := by decide
theorem test_wf_accepts_boundary : (Instr.flippos 0xB400 1 (some 16)).wf = true ∧ (Instr.seed 1).wf = true := by decide

/-! Every constructor's word, written out bit by bit: OP, A, B (R71-R73). -/

theorem test_decode_reserved0 : decodeWord 0b0000_0000000000000000_0000000000000000 = .reserved0 := by decide
theorem test_decode_tobits : decodeWord 0b0001_0000000000000000_0000000000000000 = .tobits := by decide
theorem test_decode_totext : decodeWord 0b0010_0000000000000000_0000000000000000 = .totext := by decide
theorem test_decode_split : decodeWord 0b0011_0000000000000000_0000000000000000 = .split := by decide
theorem test_decode_reassemble : decodeWord 0b0100_0000000000000000_0000000000000000 = .reassemble := by decide
/-- `A[15:11]` and `B` are ignored (R72; 95 section 2.3: A = 0xFD00 as 0x0500). -/
theorem test_decode_encode : decodeWord 0b0101_1111110100000000_1111111111111111 = .encode 0b10100000000 := by decide
theorem test_decode_decode : decodeWord 0b0110_1011110000000000_0000000000000000 = .decode 0xBC00 := by decide
theorem test_decode_syndrome : decodeWord 0b0111_1001010010000000_0000000000000001 = .syndrome 0x9480 := by decide
theorem test_decode_corrupt : decodeWord 0b1000_1111010001110011_0000000000000000 = .corrupt 0xF473 := by decide
theorem test_decode_flip : decodeWord 0b1001_1011010000000000_0000100000000000 = .flip 0xB400 0x0800 := by decide
theorem test_decode_loss : decodeWord 0b1010_1000000000000000_0000000000000001 = .loss := by decide
theorem test_decode_process : decodeWord 0b1011_0000000000000000_0000000000000000 = .process := by decide
theorem test_decode_seed : decodeWord 0b1100_1010110011100001_0000000000000000 = .seed 0xACE1 := by decide
theorem test_decode_reservedD : decodeWord 0b1101_0000000000000000_0000000000000000 = .reservedD := by decide
theorem test_decode_reservedE : decodeWord 0b1110_0000000000000000_0000000000000000 = .reservedE := by decide
theorem test_decode_reservedF : decodeWord 0b1111_0000000000000000_0000000000000000 = .reservedF := by decide
/-- FLIPPOS 0xB400, 5 is the word of FLIP 0xB400, 0x0800 (program P1), and decodes to it. -/
theorem test_encode_flippos : encode (.flippos 0xB400 5 none) = 0x9B4000800 ∧
    decodeWord (encode (.flippos 0x0000 3 (some 9))) = .flip 0x0000 0x2080 := by decide
theorem test_encode_words : encode (.encode 0x500) = 0x505000000 ∧ encode (.flip 0xB400 0x0800) = 0x9B4000800 ∧
    encode (.seed 0xACE1) = 0xCACE10000 := by decide
theorem test_decode_rejects_wide_word : decodeBits 0x1000000000 = .error .wordTooWide := by decide

/-! One or two tests a command, from the vectors of 95 and the examples of the rules. -/

/-- B3. -/
theorem test_tobits : resultOf (exec .tobits (mk freeKeep 1 [] (some (.text (text ['1', 'a', '0', '1'])))))
    = some { sout := some (.bits [true, false, false, true]), status := some .ok } := by decide
/-- B5: U+FF11 is not U+0031. -/
theorem test_tobits_fullwidth : resultOf (exec .tobits (mk freeKeep 1 [] (some (.text [0xFF11]))))
    = some { sout := some (.bits [false]), status := some .ok } := by decide
/-- B7. -/
theorem test_totext : resultOf (exec .totext (mk freeKeep 1 [] (some (.bits [true, false, true]))))
    = some { sout := some (.text [0x31, 0x30, 0x31]), status := some .ok } := by decide
/-- S3. -/
theorem test_split_pads : resultOf (exec .split (mk freeKeep 1 [] (some (.bits [true, false, true]))))
    = some { sout := some (.blocks [0x500]), status := some .ok } := by decide
/-- S5. -/
theorem test_split_twelve_bits : resultOf (exec .split (mk freeKeep 1 [] (some (.bits (List.replicate 12 true)))))
    = some { sout := some (.blocks [0x7FF, 0x400]), status := some .ok } := by decide
/-- The example of R105. -/
theorem test_reassemble : resultOf (exec .reassemble (mk freeKeep 1 [] (some (.blocks [0x500]))))
    = some { sout := some (.bits [true, false, true, false, false, false, false, false, false, false, false])
             status := some .ok } := by decide
/-- 95 section 2.3, unit vectors and two words. -/
theorem test_encode_units : [0x400, 0x200, 0x100, 0x080, 0x040, 0x020, 0x010, 0x008, 0x004, 0x002, 0x001].map encodeBlock
    = [0xE001, 0x9801, 0x5401, 0xD200, 0x8181, 0x4141, 0xC120, 0x1111, 0x9108, 0x5104, 0xD103] := by decide +kernel
theorem test_encode : resultOf (exec (.encode 0x59D) plain) = some { res := some 0xF63A, status := some .ok } := by
  decide +kernel
/-- DV5. -/
theorem test_decode_corrects : resultOf (exec (.decode 0xBC00) plain) = some
    ⟨some 0x500, some 5, some true, some .singleCorrected, some 5, none, some .ok, none⟩ := by decide +kernel
/-- DV8. -/
theorem test_decode_detects : resultOf (exec (.decode 0x9480) plain) = some
    ⟨none, some 10, some false, some .doubleDetected, some 0, none, some .ded, none⟩ := by decide +kernel
/-- DV16 through SYNDROME. -/
theorem test_syndrome_extra : resultOf (exec (.syndrome 0x0001) plain) = some
    ⟨none, some 0, some true, some .singleExtra, some 16, none, some .ok, none⟩ := by decide +kernel
/-- The example of R127. -/
theorem test_syndrome_double : resultOf (exec (.syndrome 0x9480) plain) = some
    ⟨none, some 10, some false, some .doubleDetected, some 0, none, some .ok, none⟩ := by decide +kernel
/-- X3. -/
theorem test_corrupt_single : resultOf (exec (.corrupt 0xF473) (mk freeKeep 1 [b true, b false, p 6] none))
    = some { res := some 0xF673, emask := some 0x0200, status := some .ok } := by decide +kernel
/-- X6: coinciding positions cancel. -/
theorem test_corrupt_coinciding : resultOf (exec (.corrupt 0xF63A) (mk freeKeep 1 [b true, b true, p 12, p 12] none))
    = some { res := some 0xF63A, emask := some 0, status := some .ok } := by decide +kernel
/-- X7. -/
theorem test_flip : resultOf (exec (.flip 0xB400 0x0001) plain)
    = some { res := some 0xB401, emask := some 0x0001, status := some .ok } := by decide
/-- Program P2, line 2. -/
theorem test_flippos : resultOf (exec (.flippos 0x0000 3 (some 9)) plain)
    = some { res := some 0x2080, emask := some 0x2080, status := some .ok } := by decide
/-- N5: the first draw after reset gives 0xEB62, no loss. -/
theorem test_loss_none : resultOf (exec .loss (mk refKeep 0xACE1 [] none)) = some { res := some 0, status := some .ok } ∧
    srcOf (exec .loss (mk refKeep 0xACE1 [] none)) = some (0xEB62, 1) := by decide +kernel
/-- N3. -/
theorem test_loss_one : resultOf (exec .loss (mk refKeep 0x002F [] none)) = some { res := some 1, status := some .ok } ∧
    srcOf (exec .loss (mk refKeep 0x002F [] none)) = some (0x47E0, 1) := by decide +kernel
/-- P-L1. -/
theorem test_process_padding : resultOf (exec .process (mk refKeep 0xACE1 [] (some (.text (text ['1', '0', '1'])))))
    = some { sout := some (.text (text ['1', '0', '1', '0', '0', '0', '0', '0', '0', '0', '0'])), status := some .ok } ∧
    srcOf (exec .process (mk refKeep 0xACE1 [] (some (.text (text ['1', '0', '1']))))) = some (0x330D, 2) := by
  decide +kernel
/-- P-L6: a double flip at 1 and 5. -/
theorem test_process_ded : resultOf (exec .process (mk refKeep 0x02B0 [] (some (.text payload))))
    = some { status := some .ded } ∧
    srcOf (exec .process (mk refKeep 0x02B0 [] (some (.text payload)))) = some (0x2110, 5) := by decide +kernel
theorem test_seed : srcOf (exec (.seed 0x02B0) plain) = some (0x02B0, 0) := by decide
/-- N4. -/
theorem test_seed_zero : refusalOf (exec (.seed 0) plain) = some .zeroSeed := by decide
theorem test_reserved : [Instr.reserved0, .reservedD, .reservedE, .reservedF].map (fun i => refusalOf (exec i plain))
    = List.replicate 4 (some .reservedOpcode) := by decide
/-- R156: the first draw values from 0xACE1. -/
theorem test_lfsr_draws : [1, 2, 3, 4].map (fun n => lfsrSteps (16 * n) 0xACE1) = [0xEB62, 0x330D, 0x8777, 0x1BBF] := by
  decide +kernel
/-- R80, R81: the examples, assembled. -/
theorem test_assemble : assembleLine "ENCODE 0x500 ; example".toList = .ok (some (.command 0x505000000 none)) ∧
    assembleLine "FLIPPOS 0xB400, 5".toList = .ok (some (.command 0x9B4000800 none)) ∧
    assembleLine "FLIPPOS 0xB400, 17".toList = .error .badPosition := ⟨rfl, rfl, rfl⟩
theorem test_assemble_sequences :
    assembleLine "SPLIT [1,0,1]".toList = .ok (some (.command 0x300000000 (some (.bits [true, false, true])))) ∧
    assembleLine "REASSEMBLE [0x500, 0x7FF]".toList
      = .ok (some (.command 0x400000000 (some (.blocks [0x500, 0x7FF])))) := ⟨rfl, rfl⟩

/-! The fixed interface: the word placed by `withFetchWord` is the first that runs after reset. -/

theorem test_first_step_after_reset : resultOf (step (State.reset.withFetchWord 40 0x505000000))
    = some { res := some 0xB400, status := some .ok } := by decide +kernel
theorem test_first_process_after_reset : (resultOf (step (State.reset.withFetchWord 40 0xB00000000))).isSome = true := by
  decide +kernel

/-! Witnesses: for each statement with hypotheses, a state and operands that meet them together. -/

/-- `plain` with events to come. -/
def withEvents (es : List HostEvent) : State := { plain with host := es }

/-- `plain` in the middle of PROCESS. -/
def busy (q : Seq) (es : List HostEvent) : State := { plain with seq := q, host := es }

/-- PROCESS issued on the empty payload, before its loss draw. -/
def atLosschk : Seq := ⟨.losschk, [], [], 0, []⟩

/-- `MAX_CHARS` characters, bits or blocks: the longest operands the small configurations take. -/
def longText : List Symbol := List.replicate 12 0x31
def longBits : List Bit := List.replicate 12 true
def longBlocks : List DataWord := List.replicate 12 0x7FF

theorem witness_ResetLoadsTheListedValues : ∃ (s : State) (rest : List HostEvent),
    s.seq.phase = .idle ∧ s.host = .reset :: rest := ⟨withEvents [.reset], [], rfl, rfl⟩

theorem witness_ResetDuringCommandIsRefused :
    (∃ (s : State) (w : CmdWord) (v : Option SeqVal) (rest : List HostEvent), s.seq.phase = .idle ∧
      s.host = .resetDuring w v :: rest) ∧
    ∃ (s : State) (rest : List HostEvent), s.seq.phase ≠ .idle ∧ s.host = .reset :: rest :=
  ⟨⟨withEvents [.resetDuring 0xA00000000 none], _, _, _, rfl, rfl⟩, busy atLosschk [.reset], [], by decide, rfl⟩

theorem witness_StepRunsTheIssuedCommand : ∃ (s : State) (w : CmdWord) (v : Option SeqVal) (rest : List HostEvent),
    s.seq.phase = .idle ∧ s.host = .command w v :: rest := ⟨withEvents [.command 0x505000000 none], _, _, _, rfl, rfl⟩

theorem witness_OtherEventsTouchOnlyTheSource :
    (∃ s : State, s.seq.phase = .idle ∧ s.host = []) ∧
    (∃ (s : State) (a : PeerAct) (rest : List HostEvent), s.host = .peer a :: rest ∧ s.cfg.nInstances ≤ 1) ∧
    ∀ (m : RngMode) (a : PeerAct), ∃ (s : State) (rest : List HostEvent), s.host = .peer a :: rest ∧
      1 < s.cfg.nInstances ∧ s.cfg.rngMode = m :=
  ⟨⟨plain, rfl, rfl⟩, ⟨withEvents [.peer (.seed 5)], _, _, rfl, by decide⟩,
    fun m a => ⟨{ mk { cfgOf m .truncate with nInstances := 2 } 1 [] none with host := [.peer a] }, [], rfl,
      Nat.one_lt_two, rfl⟩⟩

theorem witness_EventsAreHandledOneAtATime : ∃ s t : State, s.seq.phase = .idle ∧ step s = .next t :=
  ⟨withEvents [.command 0x505000000 none], _, rfl, rfl⟩

theorem witness_BusyStepIsASequencerStep :
    (∃ s : State, s.seq.phase ≠ .idle ∧ drawsAllowed s.cfg = true ∧ s.host = []) ∧
    ∃ s : State, s.seq.phase ≠ .idle ∧ drawsAllowed s.cfg = true ∧ ∃ w v rest, s.host = .command w v :: rest :=
  ⟨⟨busy atLosschk [], by decide, rfl, rfl⟩,
    busy atLosschk [.command 0xA00000000 none], by decide, rfl, _, _, _, rfl⟩

theorem witness_RunShowsEachResultInOrder : ∃ (s t : State) (n : Nat) (w : CmdWord) (v : Option SeqVal)
    (rest : List HostEvent) (rs : List Result) (l : Word),
    s.seq.phase = .idle ∧ s.host = .command w v :: rest ∧ step s = .next t ∧ observe n t = some (rs, l) :=
  ⟨withEvents [.command 0x505000000 none], _, 0, _, _, _, _, _, rfl, rfl, rfl, rfl⟩

theorem witness_DecodeAndEncodeAgree : (Instr.flippos 0xB400 1 (some 16)).wf = true ∧ (Instr.seed 1).wf = true ∧
    (Instr.encode 0x7FF).wf = true := by decide

theorem witness_IgnoredBitsHaveNoEffect : ∃ (s : State) (w w' : CmdWord), w ≠ w' ∧ s.seq.phase = .idle ∧
    w &&& (decodeWord w).usedBits = w' &&& (decodeWord w).usedBits :=
  ⟨plain, 0x5FD00FFFF, 0x505000000, by decide, rfl, by decide⟩

theorem witness_AssembledLinesAreCommands : ∃ (line : List Char) (e : HostEvent), assembleLine line = .ok (some e) :=
  ⟨"SEED 0x0000".toList, .command 0xC00000000 none, rfl⟩

theorem witness_TobitsMapsEachCharacter : ∃ (s : State) (t : List Symbol), s.sin = some (.text t) ∧
    t.length ≤ s.cfg.maxChars := ⟨mk freeKeep 1 [] (some (.text longText)), longText, rfl, by decide⟩

theorem witness_TotextMapsEachBit : ∃ (s : State) (b : List Bit), s.sin = some (.bits b) ∧
    b.length ≤ s.cfg.maxChars := ⟨mk freeKeep 1 [] (some (.bits longBits)), longBits, rfl, by decide⟩

theorem witness_ConverterRoundTrips : ∃ (s : State) (b : List Bit) (t : List Symbol),
    b.length ≤ s.cfg.maxChars ∧ t.length ≤ s.cfg.maxChars := ⟨plain, longBits, longText, by decide, by decide⟩

theorem witness_SplitCutsElevenBitBlocks : ∃ (s : State) (bits : List Bit) (b : Nat) (d : DataWord) (i : Nat),
    s.sin = some (.bits bits) ∧ bits.length ≤ s.cfg.maxChars ∧ (splitBits bits)[b]? = some d ∧ 1 ≤ i ∧ i ≤ 11 :=
  ⟨mk freeKeep 1 [] (some (.bits longBits)), longBits, 1, 0x400, 11, rfl, by decide, by decide, by decide, by decide⟩

theorem witness_ReassembleJoinsTheBlocks : ∃ (s : State) (blocks : List DataWord), s.sin = some (.blocks blocks) ∧
    blocks.length ≤ s.cfg.maxChars := ⟨mk freeKeep 1 [] (some (.blocks longBlocks)), longBlocks, rfl, by decide⟩

theorem witness_SegmenterRoundTrips : ∃ (s : State) (bits : List Bit) (blocks : List DataWord),
    bits.length ≤ s.cfg.maxChars ∧ 11 * blocks.length ≤ s.cfg.maxChars := ⟨plain, longBits, [0x65D], by decide, by decide⟩

theorem witness_DecodeCorrectsOrDetects :
    (busSyndrome 0x9480 ≠ 0 ∧ parity (0x9480 : Word) = false) ∧ ¬ (busSyndrome 0xB400 ≠ 0 ∧ parity (0xB400 : Word) = false) ∧
    ¬ (busSyndrome 0x3400 ≠ 0 ∧ parity (0x3400 : Word) = false) ∧ busSyndrome 0x3400 ≠ 0 := by decide

theorem witness_SingleErrorsAreCorrected : (1 ≤ 1 ∧ 1 ≤ 15) ∧ 1 ≤ 15 ∧ 15 ≤ 15 := by decide

theorem witness_DoubleErrorsAreDetected : ∃ p q : Nat, 1 ≤ p ∧ p ≤ 16 ∧ 1 ≤ q ∧ q ≤ 16 ∧ p ≠ q := ⟨1, 16, by decide⟩

theorem witness_TripleErrorsGiveWrongData : ∃ p q r : Nat, 1 ≤ p ∧ p < q ∧ q < r ∧ r ≤ 16 := ⟨1, 2, 16, by decide⟩

theorem witness_CodeHasMinimumDistanceFour : ∃ d d' : DataWord, d ≠ d' := ⟨0x400, 0x001, by decide⟩

theorem witness_LfsrRunsThroughAllNonzeroStates : ∃ a b : Word, a ≠ 0 ∧ b ≠ 0 := ⟨1, 0xFFFF, by decide, by decide⟩

theorem witness_LossReportsItsDraw :
    (∃ (s : State) (e : DrawEnv) (es : List DrawEnv), s.cfg.rngMode = .free ∧ s.src.env = e :: es) ∧
    ∃ s : State, s.cfg.rngMode = .refLfsr ∧ drawsAllowed s.cfg = true ∧ s.cfg.nInstances ≤ 1 :=
  ⟨⟨mk freeKeep 1 [b true] none, _, _, rfl, rfl⟩, mk refKeep 0x002F [] none, rfl, by decide, by decide⟩

theorem witness_CorruptFollowsItsDraws :
    (∃ (s : State) (e1 : DrawEnv) (rest : List DrawEnv), s.cfg.rngMode = .free ∧ s.src.env = e1 :: rest ∧ e1.bit = false) ∧
    (∃ (s : State) (e1 e2 e3 : DrawEnv) (rest : List DrawEnv), s.cfg.rngMode = .free ∧
      s.src.env = e1 :: e2 :: e3 :: rest ∧ e1.bit = true ∧ e2.bit = false) ∧
    ∃ (s : State) (e1 e2 e3 e4 : DrawEnv) (rest : List DrawEnv), s.cfg.rngMode = .free ∧
      s.src.env = e1 :: e2 :: e3 :: e4 :: rest ∧ e1.bit = true ∧ e2.bit = true :=
  ⟨⟨mk freeKeep 1 [b false] none, _, _, rfl, rfl, rfl⟩,
    ⟨mk freeKeep 1 [b true, b false, p 14] none, _, _, _, _, rfl, rfl, rfl, rfl⟩,
    mk freeKeep 1 [b true, b true, p 0, p 14] none, _, _, _, _, _, rfl, rfl, rfl, rfl⟩

/-- Each branch of the statement is taken: from 0xB65F the first draw is an event and the second a double (P-L6), from
0xEB62 no event (P-L1), from 0x2D13 an event of one flip (P-L4). -/
theorem witness_CorruptUnderTheReferenceLfsr :
    (refKeep.rngMode = .refLfsr ∧ drawsAllowed refKeep = true ∧ refKeep.nInstances ≤ 1) ∧
    [(0xB65F : Word), 0xEB62, 0x2D13].map (fun l => ((lfsrSteps 16 l).toNat % 100 < 7, (lfsrSteps 32 l).toNat % 100 < 5))
      = [(True, True), (False, False), (True, False)] := by
  refine ⟨by decide, ?_⟩
  simp only [List.map_cons, List.map_nil, List.cons.injEq, Prod.mk.injEq, eq_iff_iff, iff_true, iff_false, and_true]
  decide +kernel

theorem witness_CorruptMasksAreExactlyTheLightOnes : ∃ (s : State) (m : Word), s.cfg.rngMode = .free ∧
    m.getLsbD 0 = false ∧ weight m ≤ 2 := ⟨plain, 0x8002, rfl, by decide, by decide⟩

theorem witness_InjectedErrorsNeverGiveWrongData : drawsAllowed freeKeep = true ∧ drawsAllowed refKeep = true := by decide

theorem witness_FlipposIsOneFlip : ((1 ≤ 16 ∧ 16 ≤ 16) ∧ 1 ≤ 1 ∧ 1 ≤ 16) ∧ ¬ (1 ≤ 0 ∧ 0 ≤ 16) ∧ ¬ (1 ≤ 17 ∧ 17 ≤ 16) ∧
    codeLiteral "0xF63A".toList = some 0xF63A ∧
    (["0", "1", "16", "17"].map fun x => numeral 10 x.toList) = [some 0, some 1, some 16, some 17] := by
  decide

theorem witness_SeedLoadsTheSource : ∃ (s : State) (a : Word), a ≠ 0 ∧ s.cfg.rngMode = .refLfsr ∧
    drawsAllowed s.cfg = true ∧ s.cfg.nInstances ≤ 1 := ⟨mk refKeep 1 [] none, 0x002F, by decide, rfl, by decide, by decide⟩

theorem witness_FreeDrawsIgnoreTheLfsr : ∃ (s t : State) (i : Instr), s.cfg.rngMode = .free ∧ isSeed i = false ∧
    exec i s = .next t := ⟨mk freeKeep 1 [b true] none, _, .loss, rfl, rfl, rfl⟩

/-- The three ends of PROCESS, a CORRUPT and a LOSS, under REF_LFSR (P-L1, P-L5, P-L6). -/
theorem witness_LfsrCountsTheDraws :
    (∃ (s t : State) (x : List Symbol), s.cfg.rngMode = .refLfsr ∧ s.cfg.nInstances ≤ 1 ∧ exec .process s = .next t ∧
      s.sin = some (.text x) ∧ t.result.status = some .ok) ∧
    (∃ (s t : State) (x : List Symbol), s.cfg.rngMode = .refLfsr ∧ s.cfg.nInstances ≤ 1 ∧ exec .process s = .next t ∧
      s.sin = some (.text x) ∧ t.result.status = some .loss) ∧
    (∃ (s t : State) (x : List Symbol), s.cfg.rngMode = .refLfsr ∧ s.cfg.nInstances ≤ 1 ∧ exec .process s = .next t ∧
      s.sin = some (.text x) ∧ t.result.status = some .ded) ∧
    (∃ s t u : State, s.cfg.rngMode = .refLfsr ∧ s.cfg.nInstances ≤ 1 ∧ exec (.corrupt 0xB400) s = .next t ∧
      exec .loss s = .next u) :=
  ⟨⟨mk refKeep 0xACE1 [] (some (.text payload)), _, _, rfl, by decide, rfl, rfl, by decide +kernel⟩,
    ⟨mk refKeep 0x002F [] (some (.text payload)), _, _, rfl, by decide, rfl, rfl, by decide +kernel⟩,
    ⟨mk refKeep 0x02B0 [] (some (.text payload)), _, _, rfl, by decide, rfl, rfl, by decide +kernel⟩,
    mk refKeep 0xACE1 [] none, _, _, rfl, by decide, rfl, rfl⟩

theorem witness_ProcessNeverDeliversWrongData : ∃ (s : State) (t : List Symbol), s.sin = some (.text t) ∧
    t.length ≤ s.cfg.maxChars ∧ drawsAllowed s.cfg = true :=
  ⟨mk refKeep 1 [] (some (.text longText)), longText, rfl, by decide, by decide⟩

theorem witness_ProcessOutcomesAreReachable : ∃ (s : State) (t : List Symbol), s.cfg.rngMode = .free ∧
    t.length ≤ s.cfg.maxChars ∧ t ≠ [] := ⟨plain, longText, rfl, by decide, by decide⟩

theorem witness_SimulatedLossIsTheLossDraw :
    (∃ (s u : State) (t : List Symbol), s.sin = some (.text t) ∧ t.length ≤ s.cfg.maxChars ∧ drawsAllowed s.cfg = true ∧
      exec .process s = .next u ∧ u.result.status = some .loss) ∧
    ∃ (i : Instr) (s t : State), i ≠ .process ∧ exec i s = .next t :=
  ⟨⟨mk freeKeep 1 [b true] (some (.text payload)), _, payload, rfl, by decide, by decide, rfl, by decide⟩,
    .loss, plain, _, by decide, rfl⟩

/-- P-F5, then the same payload with one more character. -/
theorem witness_FurtherBlocksChangeNothingAfterDed : ∃ (s u : State) (t more : List Symbol), 11 ∣ t.length ∧ more ≠ [] ∧
    (t ++ more).length ≤ s.cfg.maxChars ∧ exec .process { s with sin := some (.text t) } = .next u ∧
    u.result.status = some .ded :=
  ⟨mk freeKeep 1 [b false, b true, b true, p 2, p 8] none, _, payload, [0x31], by decide, by decide, by decide, rfl,
    by decide +kernel⟩

theorem witness_SequencerRefinesProcess : ∃ (s : State) (t : List Symbol), s.seq = Seq.idle ∧ s.sin = some (.text t) ∧
    t.length ≤ s.cfg.maxChars ∧ drawsAllowed s.cfg = true :=
  ⟨mk refKeep 1 [] (some (.text longText)), longText, rfl, rfl, by decide, by decide⟩

/-- P-F5 by hand: the double flip at 3 and 9 of `0xF63A`. -/
theorem witness_ProcessOfOneBlockIsItsParts : ∃ (s s1 s2 s3 s4 u : State) (t : List Symbol) (d : DataWord) (cw cw2 : Word),
    t.length ≤ s.cfg.maxChars ∧ splitBits (textToBits t) = [d] ∧
    exec .loss s = .next s1 ∧ s1.result.res = some 0 ∧ exec (.encode d) s1 = .next s2 ∧ s2.result.res = some cw ∧
    exec (.corrupt cw) s2 = .next s3 ∧ s3.result.res = some cw2 ∧ exec (.decode cw2) s3 = .next s4 ∧
    exec .process { s with sin := some (.text t) } = .next u :=
  ⟨mk freeKeep 1 [b false, b true, b true, p 2, p 8] none, _, _, _, _, _, payload, 0x59D, 0xF63A, 0xD6BA,
    by decide, by decide, rfl, by decide, rfl, by decide +kernel, rfl, by decide +kernel, rfl, rfl⟩

/-- Two blocks: a loss; no event; and a double flip at 3 and 9 of the second block alone, which ends PROCESS (R183). -/
theorem witness_ProcessIsItsPartsBlockByBlock :
    longText.length ≤ freeKeep.maxChars ∧ drawsAllowed freeKeep = true ∧
    ([[b true], [b false, b false, b false], [b false, b false, b true, b true, p 2, p 8]].map fun env =>
      (resultOf (exec .process (mk freeKeep 1 env (some (.text longText))))).bind Result.status) =
      [some .loss, some .ok, some .ded] := by
  decide +kernel

theorem witness_ReservedOpcodesAreRefused : ∃ (s : State) (w : CmdWord) (v : Option SeqVal) (rest : List HostEvent),
    s.seq.phase = .idle ∧ s.host = .command w v :: rest ∧ w.extractLsb' 32 4 ∈ [0x0#4, 0xD#4, 0xE#4, 0xF#4] :=
  ⟨withEvents [.command 0xD00000000 none], _, _, _, rfl, rfl, by decide⟩

/-- A configuration whose `P_LOSS` is 1/300, no whole number of hundredths. -/
def oddConfig : Config := { refKeep with pLoss := ⟨1, 300⟩ }

/-- Each refusal is reached. -/
theorem witness_CommandsCompleteUnlessRefused :
    refusalOf (exec .reservedE plain) = some .reservedOpcode ∧ refusalOf (exec (.seed 0) plain) = some .zeroSeed ∧
    refusalOf (exec .split (mk freeKeep 1 [] (some (.bits (List.replicate 13 true))))) = some .tooLong ∧
    refusalOf (exec .split (mk freeKeep 1 [] (some (.text [])))) = some .operandMismatch ∧
    refusalOf (exec .loss (mk oddConfig 1 [] none)) = some .badProbability := by decide

theorem witness_OverlongOperandsAreRefused : ∃ (s : State) (t : List Symbol) (b : List Bit) (d : List DataWord),
    s.cfg.maxChars < t.length ∧ s.cfg.maxChars < b.length ∧ s.cfg.maxChars < d.length :=
  ⟨plain, 0x31 :: longText, true :: longBits, 0x7FF :: longBlocks, by decide, by decide, by decide⟩

theorem witness_CommandsProduceTheirFields : ∃ (i : Instr) (s t : State), exec i s = .next t :=
  ⟨.decode 0x9480, plain, _, rfl⟩

theorem witness_CommandsLeaveTheRestAlone : ∃ (s t u : State), exec (.seed 7) s = .next t ∧ exec (.flip 1 2) s = .next u :=
  ⟨plain, _, _, rfl, rfl⟩

theorem witness_CommandsWithoutDrawsAreFunctions : ∃ (i : Instr) (s s' t : State), s ≠ s' ∧ takesDraws i = false ∧
    s'.sin = s.sin ∧ s'.cfg.maxChars = s.cfg.maxChars ∧ exec i s = .next t :=
  ⟨.tobits, mk freeKeep 1 [] (some (.text payload)), mk refKeep 2 [b true] (some (.text payload)), _, by decide, rfl, rfl,
    rfl, rfl⟩

theorem witness_EarlierResultsReachNoCommand : (∃ t, exec .loss plain = .next t) ∧
    ∃ f, exec .reserved0 plain = .refused f := ⟨⟨_, rfl⟩, _, rfl⟩

theorem witness_FreeInstanceBehavesAsIfAlone : ∃ (i : Instr) (s t : State), s.cfg.rngMode = .free ∧
    s.cfg.nInstances = 2 ∧ exec i s = .next t :=
  ⟨.corrupt 0xB400, mk { freeKeep with nInstances := 2 } 1 [⟨true, 3, [.draw, .seed 9]⟩] none, _, rfl, rfl, rfl⟩

/-- In IDLE, and in each phase of the sequencer, with one payload block decoded where there is one. -/
theorem witness_EveryStepKeepsTheInvariant :
    [withEvents [.command 0xA00000000 none], withEvents [.reset], busy atLosschk [],
      busy ⟨.block, [true], [0x400], 0, []⟩ [], busy ⟨.block, [true], [0x400], 1, [0x400]⟩ [],
      busy ⟨.finish .ok, [true], [0x400], 1, [0x400]⟩ [], busy ⟨.finish .ded, [true], [0x400], 0, []⟩ []].all
      (fun s => s.cfg.wf && s.lfsr != 0 && s.seq.wf && s.result.wf && (resultOf (step s)).isSome) = true := by
  decide +kernel

end Sys2Proof.Tests
end

section
/-! SUPPORT. A shared operation, SEED or the reset event that leads to a next state: which case it was. -/

namespace Sys2Proof.Machine

variable {s t : State}

/-- A command that completes has read a Text of legal length. -/
theorem withText_eq_next {k : List Symbol → Out} (h : s.withText k = .next t) :
    ∃ x, s.sin = some (.text x) ∧ x.length ≤ s.cfg.maxChars ∧ k x = .next t := by
  obtain ⟨x, hs, hl, hk⟩ | ⟨x, -, -, hk⟩ | ⟨-, hk⟩ := withText_cases s k
  · exact ⟨x, hs, hl, hk.symm.trans h⟩
  · cases hk.symm.trans h
  · cases hk.symm.trans h

/-- A command that completes has read Bits of legal length. -/
theorem withBits_eq_next {k : List Bit → Out} (h : s.withBits k = .next t) :
    ∃ x, s.sin = some (.bits x) ∧ x.length ≤ s.cfg.maxChars ∧ k x = .next t := by
  obtain ⟨x, hs, hl, hk⟩ | ⟨x, -, -, hk⟩ | ⟨-, hk⟩ := withBits_cases s k
  · exact ⟨x, hs, hl, hk.symm.trans h⟩
  · cases hk.symm.trans h
  · cases hk.symm.trans h

/-- A command that completes has read Blocks of legal length. -/
theorem withBlocks_eq_next {k : List DataWord → Out} (h : s.withBlocks k = .next t) :
    ∃ x, s.sin = some (.blocks x) ∧ x.length ≤ s.cfg.maxChars ∧ k x = .next t := by
  obtain ⟨x, hs, hl, hk⟩ | ⟨x, -, -, hk⟩ | ⟨-, hk⟩ := withBlocks_cases s k
  · exact ⟨x, hs, hl, hk.symm.trans h⟩
  · cases hk.symm.trans h
  · cases hk.symm.trans h

/-- A drawing command that completes has passed the guard of R157. -/
theorem withDraws_eq_next {o : Out} (h : s.withDraws o = .next t) : drawsAllowed s.cfg = true ∧ o = .next t := by
  obtain ⟨ha, hk⟩ | ⟨-, hk⟩ := withDraws_cases s o
  · exact ⟨ha, hk.symm.trans h⟩
  · cases hk.symm.trans h

/-- SEED completes only on a nonzero operand, which it loads (R162). -/
theorem exec_seed_eq_next {a : Word} (h : exec (.seed a) s = .next t) :
    a ≠ 0 ∧ t = (s.withSrc { s.src with lfsr := a }).completeOk {} := by
  rw [exec, execSeed] at h
  split at h
  case isTrue => cases h
  case isFalse ha =>
    cases h
    exact ⟨ha, rfl⟩

/-- In IDLE a reset event has the reset effect and is taken from the queue (R231). -/
theorem step_reset {rest : List HostEvent} (hidle : s.seq.phase = .idle) (hhost : s.host = .reset :: rest) :
    step s = .next { s.resetEffect with host := rest } := by
  simp [step, nextEvent, idleEvent, hidle, hhost]

end Sys2Proof.Machine
end

section
/-! PROOFS. The statements about the state: the reset values (R32, R231) and the result fields (R24). -/

namespace Sys2Proof.Slice0

open Sys2Proof.Machine

/-- Settles O1: the reset values are the model's own, and the reset event in IDLE is `State.resetEffect`. -/
theorem resetLoadsTheListedValues : Obligations.ResetLoadsTheListedValues := by
  refine ⟨⟨rfl, rfl, rfl, rfl⟩, fun s rest hidle hhost => ?_⟩
  exact ⟨_, step_reset hidle hhost, rfl, rfl, rfl, rfl⟩

/-- A result record as R24's row of the command has it. -/
def HasRowFields (i : Instr) (r : Result) : Prop :=
  ∃ st, r.status = some st ∧ tableFields i st = some (producedFields r) ∧ soutTyped i r.sout

/-- DECODE gives RES on OK and none on DED, the four diagnostic fields on both (R128). -/
theorem decode_hasRowFields {cw : Word} {s t : State} (h : exec (.decode cw) s = .next t) :
    HasRowFields (.decode cw) t.result := by
  cases hd : decodeBlock cw with
  | none =>
    cases (exec_decode_none hd).symm.trans h
    exact ⟨.ded, rfl, rfl, trivial⟩
  | some d =>
    cases (exec_decode_some hd).symm.trans h
    exact ⟨.ok, rfl, rfl, trivial⟩

/-- PROCESS gives a Text on OK and nothing beside the status on LOSS and DED (R181). -/
theorem processText_hasRowFields (x : List Symbol) (s : State) : HasRowFields .process (processText x s).result := by
  obtain ⟨-, hp⟩ | ⟨-, r, -, hp⟩ | ⟨-, r, -, hp⟩ := processText_cases x s
  · rw [hp]
    exact ⟨.loss, rfl, rfl, trivial⟩
  · rw [hp]
    exact ⟨.ded, rfl, rfl, trivial⟩
  · rw [hp]
    exact ⟨.ok, rfl, rfl, trivial⟩

/-- Settles O49, by cases on the command: what completed it names its record, DECODE and PROCESS having more than one
ending. -/
theorem commandsProduceTheirFields : Obligations.CommandsProduceTheirFields := by
  intro i s t h
  cases i with
  | tobits =>
    obtain ⟨x, -, -, ⟨⟩⟩ := withText_eq_next h
    exact ⟨.ok, rfl, rfl, trivial⟩
  | totext =>
    obtain ⟨x, -, -, ⟨⟩⟩ := withBits_eq_next h
    exact ⟨.ok, rfl, rfl, trivial⟩
  | split =>
    obtain ⟨x, -, -, ⟨⟩⟩ := withBits_eq_next h
    exact ⟨.ok, rfl, rfl, trivial⟩
  | reassemble =>
    obtain ⟨x, -, -, ⟨⟩⟩ := withBlocks_eq_next h
    exact ⟨.ok, rfl, rfl, trivial⟩
  | encode d =>
    cases h
    exact ⟨.ok, rfl, rfl, trivial⟩
  | decode cw => exact decode_hasRowFields h
  | syndrome cw =>
    cases h
    exact ⟨.ok, rfl, rfl, trivial⟩
  | corrupt cw =>
    obtain ⟨-, ⟨⟩⟩ := withDraws_eq_next h
    exact ⟨.ok, rfl, rfl, trivial⟩
  | flip cw m =>
    cases h
    exact ⟨.ok, rfl, rfl, trivial⟩
  | loss =>
    obtain ⟨-, ⟨⟩⟩ := withDraws_eq_next h
    exact ⟨.ok, rfl, rfl, trivial⟩
  | process =>
    obtain ⟨x, -, -, hk⟩ := withText_eq_next h
    obtain ⟨-, ⟨⟩⟩ := withDraws_eq_next hk
    exact processText_hasRowFields x s
  | seed a =>
    obtain ⟨-, rfl⟩ := exec_seed_eq_next h
    exact ⟨.ok, rfl, rfl, trivial⟩
  | reserved0 => cases h
  | reservedD => cases h
  | reservedE => cases h
  | reservedF => cases h
  | flippos cw p q =>
    cases h
    exact ⟨.ok, rfl, rfl, trivial⟩

end Sys2Proof.Slice0
end

section
/-! PROOFS. The statement about the Segmenter's cut: where SPLIT puts each bit (R43, R103). -/

namespace Sys2Proof.Slice0

open Sys2Proof.Machine

/-- R43 in the spec's numbering: data bit `i`, counted from 1, of block `b` is bit `11b + i - 1`, or padding. -/
theorem dataBit_blockOf (bits : List Bit) (b : Nat) {i : Nat} (h1 : 1 ≤ i) (h11 : i ≤ 11) :
    dataBit (blockOf bits b) i = bits.getD (11 * b + (i - 1)) false := by
  have hpos : 10 - (11 - i) = i - 1 := by omega
  rw [dataBit, getLsbD_blockOf bits b (11 - i) (by omega), hpos]

/-- Every block that SPLIT gives at index `b` is `blockOf` there. -/
theorem eq_blockOf_of_getElem?_splitBits {bits : List Bit} {b : Nat} {d : DataWord}
    (h : (splitBits bits)[b]? = some d) : d = blockOf bits b := by
  rw [getElem?_splitBits, Option.ite_none_right_eq_some] at h
  obtain ⟨-, ⟨⟩⟩ := h
  rfl

/-- Settles O16: the blocks are `splitBits`, and each block's bits are those of `blockOf`. -/
theorem splitCutsElevenBitBlocks : Obligations.SplitCutsElevenBitBlocks := by
  intro s bits hs hl
  refine ⟨splitBits bits, exec_split hs hl, length_splitBits bits, fun b d hd i h1 h11 => ?_⟩
  rw [eq_blockOf_of_getElem?_splitBits hd, dataBit_blockOf bits b h1 h11]

end Sys2Proof.Slice0
end

section
/-! SUPPORT. What a word spells depends only on its used bits, and `encode` sets no other bit (R72, R73, R75). -/

namespace Sys2Proof

/-- Masked words that are equal have the same field, wherever the mask covers it. -/
theorem extractLsb'_eq_of_and_eq {w w' u : CmdWord} {start len : Nat} (h : w &&& u = w' &&& u)
    (hu : u.extractLsb' start len = BitVec.allOnes len) : w.extractLsb' start len = w'.extractLsb' start len := by
  have hf := congrArg (·.extractLsb' start len) h
  simpa only [BitVec.extractLsb'_and, hu, BitVec.and_allOnes] using hf

/-- The data word's bits in the command word: `CMD[26:16]` (R72). -/
theorem dField_eq (w : CmdWord) : dField w = w.extractLsb' 16 11 := by
  apply BitVec.eq_of_getLsbD_eq
  intro i hi
  simp only [dField, aField, BitVec.getLsbD_extractLsb']
  simp [hi]
  omega

/-- The format mask of FC and FS keeps `A` (R72). -/
theorem aField_eq_of_and_eq {w w' : CmdWord} (h : w &&& 0xFFFFF0000 = w' &&& 0xFFFFF0000) : aField w = aField w' :=
  extractLsb'_eq_of_and_eq h (by decide)

/-- The format mask of FD keeps the data word (R72). -/
theorem dField_eq_of_and_eq {w w' : CmdWord} (h : w &&& 0xF07FF0000 = w' &&& 0xF07FF0000) : dField w = dField w' := by
  rw [dField_eq, dField_eq]
  exact extractLsb'_eq_of_and_eq h (by decide)

/-- The format mask of FCM keeps the whole word (R72). -/
theorem eq_of_and_allOnes_eq {w w' : CmdWord} (h : w &&& 0xFFFFFFFFF = w' &&& 0xFFFFFFFFF) : w = w' := by
  rwa [show (0xFFFFFFFFF : CmdWord) = BitVec.allOnes 36 by decide, BitVec.and_allOnes, BitVec.and_allOnes] at h

/-- The command with the operands its format takes from `w` (R72); FLIPPOS, which no word spells, is left as it is. -/
def Instr.readFrom (w : CmdWord) : Instr → Instr
  | .tobits => .tobits
  | .totext => .totext
  | .split => .split
  | .reassemble => .reassemble
  | .encode _ => .encode (dField w)
  | .decode _ => .decode (aField w)
  | .syndrome _ => .syndrome (aField w)
  | .corrupt _ => .corrupt (aField w)
  | .flip _ _ => .flip (aField w) (bField w)
  | .loss => .loss
  | .process => .process
  | .seed _ => .seed (aField w)
  | .reserved0 => .reserved0
  | .reservedD => .reservedD
  | .reservedE => .reservedE
  | .reservedF => .reservedF
  | .flippos cw p q => .flippos cw p q

/-- Words with one opcode spell one command, each with its own operands (R73). -/
theorem decodeWord_eq_readFrom {w w' : CmdWord} (hop : opField w = opField w') :
    decodeWord w = (decodeWord w').readFrom w := by
  simp only [decodeWord, hop]
  split <;> rfl

/-- Every format reads all of `OP` (R72). -/
theorem opField_usedBits (i : Instr) : opField i.usedBits = BitVec.allOnes 4 := by
  cases i <;> (rw [Instr.usedBits]; decide)

/-- The operands of a command are the same in two words that agree on its used bits (R72, R75). -/
theorem readFrom_eq_of_usedBits {w w' : CmdWord} (i : Instr) (h : w &&& i.usedBits = w' &&& i.usedBits) :
    i.readFrom w = i.readFrom w' := by
  cases i with
  | encode d => exact congrArg Instr.encode (dField_eq_of_and_eq h)
  | decode cw => exact congrArg Instr.decode (aField_eq_of_and_eq h)
  | syndrome cw => exact congrArg Instr.syndrome (aField_eq_of_and_eq h)
  | corrupt cw => exact congrArg Instr.corrupt (aField_eq_of_and_eq h)
  | flip cw m => rw [eq_of_and_allOnes_eq h]
  | seed a => exact congrArg Instr.seed (aField_eq_of_and_eq h)
  | _ => rfl

/-- Two words that agree on the used bits of what one spells spell the same command (R75). -/
theorem decodeWord_eq_of_usedBits {w w' : CmdWord}
    (h : w &&& (decodeWord w).usedBits = w' &&& (decodeWord w).usedBits) : decodeWord w = decodeWord w' := by
  have hop : opField w = opField w' := extractLsb'_eq_of_and_eq h (opField_usedBits _)
  calc decodeWord w = (decodeWord w).readFrom w := decodeWord_eq_readFrom rfl
    _ = (decodeWord w).readFrom w' := readFrom_eq_of_usedBits _ h
    _ = decodeWord w' := (decodeWord_eq_readFrom hop.symm).symm

/-- A word with nothing in `B` has no bit outside the mask of FC and FS (R72). -/
theorem packCmd_a_and_not (op : BitVec 4) (a : Word) : packCmd op a 0 &&& ~~~ 0xFFFFF0000 = 0 := by
  rw [show (~~~ 0xFFFFF0000 : CmdWord) = packCmd 0 0 0xFFFF by decide, packCmd_and]
  simp [packCmd]

/-- A zero-extended data word has nothing in `A[15:11]` (R60). -/
theorem zeroExtend_and_high (d : DataWord) : d.zeroExtend 16 &&& 0xF800 = 0 := by
  apply BitVec.eq_of_getLsbD_eq
  intro i hi
  rw [BitVec.getLsbD_and, show (0xF800 : Word) = 0x1F#16 <<< 11 by decide, BitVec.getLsbD_shiftLeft]
  by_cases h : i < 11
  · simp [h]
  · simp [BitVec.getLsbD_of_ge d i (by omega)]

/-- A data word in `A` and nothing in `B` leave no bit outside the mask of FD (R72). -/
theorem packCmd_d_and_not (op : BitVec 4) (d : DataWord) : packCmd op (d.zeroExtend 16) 0 &&& ~~~ 0xF07FF0000 = 0 := by
  rw [show (~~~ 0xF07FF0000 : CmdWord) = packCmd 0 0xF800 0xFFFF by decide, packCmd_and, zeroExtend_and_high]
  simp [packCmd]

/-- The mask of FCM leaves no bit out (R72). -/
theorem and_not_fcm (w : CmdWord) : w &&& ~~~ 0xFFFFFFFFF = 0 := by
  rw [show (~~~ 0xFFFFFFFFF : CmdWord) = 0 by decide]
  exact BitVec.and_zero

/-- `encode` writes every bit that the command's format ignores as 0 (R75). -/
theorem encode_and_not_usedBits (i : Instr) : encode i &&& ~~~ i.usedBits = 0 := by
  cases i with
  | encode d => exact packCmd_d_and_not _ d
  | decode cw => exact packCmd_a_and_not _ cw
  | syndrome cw => exact packCmd_a_and_not _ cw
  | corrupt cw => exact packCmd_a_and_not _ cw
  | seed a => exact packCmd_a_and_not _ a
  | flip cw m => exact and_not_fcm _
  | flippos cw p q => exact and_not_fcm _
  | _ => rfl

end Sys2Proof
end

section
/-! SUPPORT. The step that takes an issued word, and the words with a reserved opcode (R22, R51, R74). -/

namespace Sys2Proof.Machine

variable {s : State} {w : CmdWord} {v : Option SeqVal} {rest : List HostEvent}

/-- In IDLE an issued word is executed whole, with its operand (R22, R51). -/
theorem step_command (hidle : s.seq.phase = .idle) (hhost : s.host = .command w v :: rest) :
    step s = exec (decodeWord w) (s.accept v rest) := by
  simp [step, nextEvent, idleEvent, hidle, hhost]

/-- A word with a reserved opcode is refused in every state, whatever its other bits (R74). -/
theorem exec_decodeWord_reserved (s : State) (hop : opField w ∈ [0x0#4, 0xD#4, 0xE#4, 0xF#4]) :
    exec (decodeWord w) s = .refused .reservedOpcode := by
  simp only [List.mem_cons, List.not_mem_nil, or_false] at hop
  obtain h | h | h | h := hop
  · rw [decodeWord_eq_readFrom (w' := 0x000000000) h]; rfl
  · rw [decodeWord_eq_readFrom (w' := 0xD00000000) h]; rfl
  · rw [decodeWord_eq_readFrom (w' := 0xE00000000) h]; rfl
  · rw [decodeWord_eq_readFrom (w' := 0xF00000000) h]; rfl

end Sys2Proof.Machine
end

section
/-! PROOFS. The statements about ignored bits (R75) and the reserved opcodes (R74). -/

namespace Sys2Proof.Slice0

open Sys2Proof.Machine

/-- Settles O10: the two words spell one command, which runs in one state; what `encode` writes stays in the mask of
the command's format. -/
theorem ignoredBitsHaveNoEffect : Obligations.IgnoredBitsHaveNoEffect := by
  refine ⟨fun s w w' v rest hidle hw => ?_, encode_and_not_usedBits⟩
  have hstep (u : CmdWord) := step_command (s := { s with host := .command u v :: rest }) hidle rfl
  rw [hstep w, hstep w', decodeWord_eq_of_usedBits hw]
  rfl

/-- Settles O46: the reserved arms refuse by name, and a word with a reserved opcode leads to one of them. -/
theorem reservedOpcodesAreRefused : Obligations.ReservedOpcodesAreRefused := by
  refine ⟨fun s => ⟨rfl, rfl, rfl, rfl⟩, fun s w v rest hidle hhost hop => ?_⟩
  rw [step_command hidle hhost]
  exact exec_decodeWord_reserved _ hop

end Sys2Proof.Slice0
end

section
/-! PROOFS. The statements about the converter and the Segmenter's join: where TOBITS, TOTEXT and REASSEMBLE put each
element (R100, R101, R105). -/

namespace Sys2Proof.Slice0

open Sys2Proof.Machine

/-- Bit `j` of a text's bits is that of its character `j` alone (R100). -/
theorem getElem?_textToBits (t : List Symbol) (j : Nat) : (textToBits t)[j]? = t[j]?.map symbolToBit :=
  List.getElem?_map

/-- Character `j` of a bit sequence's text is that of its bit `j` alone (R101). -/
theorem getElem?_bitsToText (b : List Bit) (j : Nat) : (bitsToText b)[j]? = b[j]?.map bitToSymbol :=
  List.getElem?_map

/-- R43 in the spec's numbering: bit `11b + i` of the joined blocks is data bit `i + 1`, counted from 1, of block `b`. -/
theorem getElem?_joinBlocks_dataBit (blocks : List DataWord) (b : Nat) {i : Nat} (hi : i < 11) :
    (joinBlocks blocks)[11 * b + i]? = blocks[b]?.map fun d => dataBit d (i + 1) := by
  have hblock : (11 * b + i) / 11 = b := by omega
  have hpos : 10 - (11 * b + i) % 11 = 11 - (i + 1) := by omega
  rw [getElem?_joinBlocks, hblock, hpos]
  rfl

/-- Settles O13: the bits are `textToBits`, and `symbolToBit` compares with U+0031. -/
theorem tobitsMapsEachCharacter : Obligations.TobitsMapsEachCharacter := fun _ t hs hl =>
  ⟨textToBits t, exec_tobits hs hl, length_textToBits t, getElem?_textToBits t⟩

/-- Settles O14: the text is `bitsToText`, and `bitToSymbol` gives U+0031 or U+0030. -/
theorem totextMapsEachBit : Obligations.TotextMapsEachBit := fun _ b hs hl =>
  ⟨bitsToText b, exec_totext hs hl, length_bitsToText b, getElem?_bitsToText b⟩

/-- Settles O17: the bits are `joinBlocks`, and each is the data bit that its place names. -/
theorem reassembleJoinsTheBlocks : Obligations.ReassembleJoinsTheBlocks := fun _ blocks hs hl =>
  ⟨joinBlocks blocks, exec_reassemble hs hl, length_joinBlocks blocks,
    fun b _ hi => getElem?_joinBlocks_dataBit blocks b hi⟩

end Sys2Proof.Slice0
end

section
/-! SUPPORT. The checks and the overall parity are the bus parities of R123 and R124, so the tables of R125 and R126
give the model's own diagnosis. -/

namespace Sys2Proof.Slice0

open Sys2Proof.Machine

/-- The parity over a set of positions does not depend on their order (R13). -/
theorem xorAt_eq_of_perm {ps qs : List Nat} (cw : Word) (h : ps.Perm qs) : xorAt cw ps = xorAt cw qs :=
  h.foldl_eq' (fun _ _ _ _ _ => Bool.xor_right_comm ..) false

/-- The positions whose bits a bus mask keeps: position `p` is bit `16 - p` (R61). -/
def maskPositions (m : Word) : List Nat := ((List.range 16).filter m.getLsbD).map (16 - ·)

/-- The parity of a masked word is the parity over the mask's positions (R61, R123). -/
theorem parity_and_eq_xorAt (cw m : Word) : parity (cw &&& m) = xorAt cw (maskPositions m) := by
  rw [parity, xorAt, maskPositions, List.foldl_map, List.foldl_filter]
  refine List.foldl_ext _ _ _ fun b j hj => ?_
  have hbit : 16 - (16 - j) = j := by have := List.mem_range.1 hj; omega
  rw [bitAt, hbit, BitVec.getLsbD_and]
  cases m.getLsbD j <;> simp

/-- A check is the parity of the word under the mask of its own position and its data positions (R64, R123). -/
theorem parity_and_eq_check {m : Word} {w : Nat} {ps : List Nat} (cw : Word) (h : (maskPositions m).Perm (w :: ps)) :
    parity (cw &&& m) = check cw w ps := by
  rw [parity_and_eq_xorAt, xorAt_eq_of_perm cw h, xorAt_cons, check]

/-- The masks `C8`, `C4`, `C2` and `C1` are those of the four checks (R123). -/
theorem busSyndrome_eq (cw : Word) : busSyndrome cw = syndromeOf cw := by
  rw [busSyndrome, syndromeOf, parity_and_eq_check (w := 8) (ps := checkSet8) cw (by decide),
    parity_and_eq_check (w := 4) (ps := checkSet4) cw (by decide),
    parity_and_eq_check (w := 2) (ps := checkSet2) cw (by decide),
    parity_and_eq_check (w := 1) (ps := checkSet1) cw (by decide)]

/-- `OVP = par(CW)`: the parity over all 16 positions (R124). -/
theorem parity_eq_overallParity (cw : Word) : parity cw = overallParity cw := by
  have hperm : (maskPositions (BitVec.allOnes 16)).Perm (positions1to15 ++ [16]) := by decide
  rw [overallParity, ← xorAt_eq_of_perm cw hperm, ← parity_and_eq_xorAt, BitVec.and_allOnes]

/-- The tables of R125 and R126, row by row, are `classify` and `errorPosition`. -/
theorem tableDiagnosis_eq (cw : Word) : tableDiagnosis cw = diagnosis cw := by
  rw [tableDiagnosis, diagnosis, verdictOf, busSyndrome_eq, parity_eq_overallParity]
  by_cases hsyn : syndromeOf cw = 0
  · rw [decide_eq_true hsyn, classify, if_pos hsyn]
    cases overallParity cw <;> rfl
  · rw [decide_eq_false hsyn, classify, if_neg hsyn]
    cases overallParity cw <;> rfl

end Sys2Proof.Slice0
end

section
/-! SUPPORT. What the decoder gives by syndrome and overall parity, and where `extract` reads each data bit
(R128, R129). -/

namespace Sys2Proof.Machine

/-- SYN not 0 with OVP 0 is the double error: no data (R125, R128). -/
theorem decodeBlock_eq_none {cw : Word} (h : syndromeOf cw ≠ 0 ∧ overallParity cw = false) : decodeBlock cw = none := by
  obtain ⟨hsyn, hovp⟩ := h
  have hv : verdictOf cw = .doubleDetected := by rw [verdictOf, hovp, classify, if_neg hsyn]; rfl
  rw [decodeBlock, hv]

/-- In every other case the data are those of the word with position SYN flipped, or as it is where SYN is 0
(R125, R126, R128). -/
theorem decodeBlock_eq_some {cw : Word} (h : ¬ (syndromeOf cw ≠ 0 ∧ overallParity cw = false)) :
    decodeBlock cw = some (extract (if syndromeOf cw = 0 then cw else cw ^^^ onehot (syndromeOf cw).toNat)) := by
  by_cases hsyn : syndromeOf cw = 0
  · cases hovp : overallParity cw with
    | false =>
      have hv : verdictOf cw = .noError := by rw [verdictOf, hovp, classify, if_pos hsyn]; rfl
      rw [decodeBlock, hv, if_pos hsyn]
    | true =>
      have hv : verdictOf cw = .singleExtra := by rw [verdictOf, hovp, classify, if_pos hsyn]; rfl
      rw [decodeBlock, hv, if_pos hsyn]
  · have hovp : overallParity cw = true := Bool.eq_true_of_not_eq_false fun hovp => h ⟨hsyn, hovp⟩
    have hv : verdictOf cw = .singleCorrected := by rw [verdictOf, hovp, classify, if_neg hsyn]; rfl
    rw [decodeBlock, hv, if_neg hsyn, correctionMask]

/-- R129 in the spec's numbering: data bit `i`, counted from 1, of the extracted word is the bit at position `DP(i)`. -/
theorem dataBit_extract (cw : Word) {i : Nat} (h1 : 1 ≤ i) (h11 : i ≤ 11) :
    dataBit (extract cw) i = bitAt cw (dataPositions.getD (i - 1) 0) := by
  have hpos : 10 - (11 - i) = i - 1 := by omega
  rw [dataBit, getLsbD_extract cw (11 - i) (by omega), hpos]

/-- R120 in the spec's numbering: a codeword has data bit `i`, counted from 1, at position `DP(i)`. -/
theorem bitAt_encodeBlock_dataPositions (d : DataWord) {i : Nat} (h1 : 1 ≤ i) (h11 : i ≤ 11) :
    bitAt (encodeBlock d) (dataPositions.getD (i - 1) 0) = dataBit d i := by
  obtain ⟨-, -, hext⟩ := encodeBlock_facts d
  rw [← dataBit_extract _ h1 h11, hext]

end Sys2Proof.Machine
end

section
/-! PROOFS. The statements about the codec's three commands: what ENCODE places, what SYNDROME reports and what DECODE
answers (R120, R127, R128). -/

namespace Sys2Proof.Slice0

open Sys2Proof.Machine

/-- Settles O19: RES is `encodeBlock`, whose data and parity bits are those of R120. -/
theorem encodePlacesDataAndParity : Obligations.EncodePlacesDataAndParity := by
  intro s d
  obtain ⟨-, hparity⟩ := bitAt_encodeBlock d
  exact ⟨encodeBlock d, exec_encode d, fun i h1 h11 => bitAt_encodeBlock_dataPositions d h1 h11, hparity⟩

/-- Settles O22: the record SYNDROME publishes is `diagnosis`, which is that of the tables. -/
theorem syndromeFollowsTheTables : Obligations.SyndromeFollowsTheTables := by
  intro s cw
  rw [tableDiagnosis_eq]
  exact exec_syndrome cw

/-- Settles O23: the decoder's two outcomes, by syndrome and overall parity. -/
theorem decodeCorrectsOrDetects : Obligations.DecodeCorrectsOrDetects := by
  intro s cw
  rw [tableDiagnosis_eq, busSyndrome_eq, parity_eq_overallParity]
  refine ⟨fun hded => exec_decode_none (decodeBlock_eq_none hded), fun hok => ?_⟩
  exact ⟨_, exec_decode_some (decodeBlock_eq_some hok), fun i h1 h11 => dataBit_extract _ h1 h11⟩

end Sys2Proof.Slice0
end

section
/-! SUPPORT. The LFSR as a linear map (R154): its states are the field of 2^16 elements with 0x8000 as one and the step
as multiplication by a generator, so `n` steps from any state are read off `n` steps from 0x8000. -/

namespace Sys2Proof.Machine

/-- The step with the feedback as a summand (R154). -/
theorem lfsrStep_eq_xor (s : Word) : lfsrStep s = s >>> 1 ^^^ if s.getLsbD 0 then 0xB400#16 else 0 := by
  rw [lfsrStep]
  split
  · rfl
  · exact BitVec.xor_zero.symm

/-- The step is linear (R154). -/
theorem lfsrStep_xor (a b : Word) : lfsrStep (a ^^^ b) = lfsrStep a ^^^ lfsrStep b := by
  have hmask : ∀ x y : Bool, (if (x ^^ y) = true then 0xB400#16 else 0) =
      (if x = true then 0xB400#16 else 0) ^^^ if y = true then 0xB400#16 else 0 := by decide
  rw [lfsrStep_eq_xor, lfsrStep_eq_xor a, lfsrStep_eq_xor b, BitVec.getLsbD_xor, BitVec.ushiftRight_xor_distrib, hmask]
  ac_rfl

theorem lfsrSteps_xor (n : Nat) (a b : Word) : lfsrSteps n (a ^^^ b) = lfsrSteps n a ^^^ lfsrSteps n b := by
  induction n generalizing a b with
  | zero => rfl
  | succ n ih => rw [lfsrSteps, lfsrStep_xor, ih, lfsrSteps, lfsrSteps]

/-- The LFSR is locked at 0 (R162). -/
theorem lfsrSteps_of_zero (n : Nat) : lfsrSteps n 0 = 0 := by
  induction n with
  | zero => rfl
  | succ n ih => exact ih

theorem lfsrSteps_eq_iterate (n : Nat) (s : Word) : lfsrSteps n s = lfsrStep^[n] s := by
  induction n generalizing s with
  | zero => rfl
  | succ n ih => exact ih (lfsrStep s)

theorem lfsrSteps_lfsrStep (n : Nat) (s : Word) : lfsrSteps n (lfsrStep s) = lfsrStep (lfsrSteps n s) := by
  rw [lfsrSteps_eq_iterate, lfsrSteps_eq_iterate]
  exact (Function.Commute.self_iterate lfsrStep n).symm.eq s

/-- The sum of the states `w`, `lfsrStep w`, `lfsrStep (lfsrStep w)` and so on that the bits select. -/
def sumSteps : List Bit → Word → Word
  | [], _ => 0
  | b :: bs, w => (if b then w else 0) ^^^ sumSteps bs (lfsrStep w)

/-- Steps go through a sum of steps, for they are linear and commute. -/
theorem lfsrSteps_sumSteps (n : Nat) (bs : List Bit) (w : Word) :
    lfsrSteps n (sumSteps bs w) = sumSteps bs (lfsrSteps n w) := by
  induction bs generalizing w with
  | nil => exact lfsrSteps_of_zero n
  | cons b bs ih =>
    rw [sumSteps, sumSteps, lfsrSteps_xor, ih, lfsrSteps_lfsrStep, apply_ite (lfsrSteps n), lfsrSteps_of_zero]

theorem sumSteps_xor (bs : List Bit) (v w : Word) : sumSteps bs (v ^^^ w) = sumSteps bs v ^^^ sumSteps bs w := by
  induction bs generalizing v w with
  | nil => exact BitVec.xor_zero.symm
  | cons b bs ih =>
    rw [sumSteps, sumSteps, sumSteps, lfsrStep_xor, ih]
    cases b
    · simp
    · simp only [if_true]; ac_rfl

/-- The field's one: its first 15 steps only shift, so they run through the single bits from bit 15 to bit 0. -/
def lfsrOne : Word := 0x8000

/-- The field's product: bit 15 of `a` selects `w`, bit 14 the step of `w`, and so on. -/
def lfsrMul (a w : Word) : Word := sumSteps ((List.range 16).map a.getMsbD) w

/-- Each bit of `a` selects its own single bit. -/
theorem lfsrMul_one (a : Word) : lfsrMul a lfsrOne = a := by
  refine BitVec.eq_of_getMsbD_eq fun i hi => ?_
  have hbit : ∀ (b : Bool) (w : Word), (if b = true then w else 0).getMsbD i = (b && w.getMsbD i) := by
    intro b w; cases b <;> simp
  simp only [lfsrMul, List.range, List.range.loop, List.map, sumSteps, lfsrOne, BitVec.getMsbD_xor, hbit]
  interval_cases i <;> simp [lfsrStep]

/-- `n` steps from any state are a product with `n` steps from one. -/
theorem lfsrSteps_eq_mul (n : Nat) (a : Word) : lfsrSteps n a = lfsrMul a (lfsrSteps n lfsrOne) := by
  conv_lhs => rw [← lfsrMul_one a]
  exact lfsrSteps_sumSteps n _ _

/-- Two counts of steps together are a product. -/
theorem lfsrSteps_add_one (m n : Nat) :
    lfsrSteps (m + n) lfsrOne = lfsrMul (lfsrSteps m lfsrOne) (lfsrSteps n lfsrOne) := by
  rw [lfsrSteps_add, lfsrSteps_eq_mul n]

/-- `n` steps from one, by squaring: `f` squarings do for a count below `2^f`. -/
def lfsrPow : Nat → Nat → Word
  | 0, _ => lfsrOne
  | f + 1, n =>
    if n % 2 = 0 then lfsrMul (lfsrPow f (n / 2)) (lfsrPow f (n / 2))
    else lfsrStep (lfsrMul (lfsrPow f (n / 2)) (lfsrPow f (n / 2)))

theorem lfsrPow_eq {f n : Nat} (h : n < 2 ^ f) : lfsrPow f n = lfsrSteps n lfsrOne := by
  induction f generalizing n with
  | zero => rw [Nat.lt_one_iff.1 h]; rfl
  | succ f ih =>
    have hhalf : n / 2 < 2 ^ f := by omega
    rw [lfsrPow, ih hhalf, ← lfsrSteps_add_one]
    split
    case isTrue => congr 1; omega
    case isFalse =>
      rw [← lfsrSteps_lfsrStep, ← lfsrSteps]
      congr 1; omega

end Sys2Proof.Machine
end

section
/-! SUPPORT. Every nonzero state has the period 65535 = 3 * 5 * 17 * 257 under the LFSR step (R154). -/

namespace Sys2Proof.Machine

/-- After 65535 steps every state is back. -/
theorem lfsrSteps_65535 (a : Word) : lfsrSteps 65535 a = a := by
  have hone : lfsrSteps 65535 lfsrOne = lfsrOne := by
    rw [← lfsrPow_eq (f := 16) (by decide)]
    decide +kernel
  rw [lfsrSteps_eq_mul, hone, lfsrMul_one]

/-- Where the sum of `k` steps and none has an inverse in the field, `j` steps, no state but 0 is back after `k`. -/
theorem eq_zero_of_lfsrSteps_eq_self {j k : Nat} {a : Word}
    (hone : lfsrSteps (k + j) lfsrOne ^^^ lfsrSteps j lfsrOne = lfsrOne) (h : lfsrSteps k a = a) : a = 0 :=
  calc a = lfsrMul a (lfsrSteps (k + j) lfsrOne ^^^ lfsrSteps j lfsrOne) := by rw [hone, lfsrMul_one]
    _ = lfsrSteps (k + j) a ^^^ lfsrSteps j a := by
      rw [lfsrSteps_eq_mul (k + j) a, lfsrSteps_eq_mul j a]; exact sumSteps_xor ..
    _ = 0 := by rw [lfsrSteps_add, h]; exact BitVec.xor_self

/-- No nonzero state is back after `65535 / q` steps. For each prime `q` the proof names the inverse, `j` steps. -/
theorem lfsrSteps_div_prime_ne_self {q : Nat} (hq : q.Prime) (hdvd : q ∣ 65535) {a : Word} (ha : a ≠ 0) :
    lfsrSteps (65535 / q) a ≠ a := by
  have key : ∀ {j k : Nat}, j < 2 ^ 16 → k < 2 ^ 16 → lfsrPow 17 (k + j) ^^^ lfsrPow 17 j = lfsrOne →
      lfsrSteps k a ≠ a := by
    intro j k hj hk hone h
    rw [lfsrPow_eq (by omega), lfsrPow_eq (by omega)] at hone
    exact ha (eq_zero_of_lfsrSteps_eq_self hone h)
  have hcases : q = 3 ∨ q = 5 ∨ q = 17 ∨ q = 257 := by
    rw [show 65535 = 3 * 5 * 17 * 257 from rfl, hq.dvd_mul, hq.dvd_mul, hq.dvd_mul,
      Nat.prime_dvd_prime_iff_eq hq (by norm_num), Nat.prime_dvd_prime_iff_eq hq (by norm_num),
      Nat.prime_dvd_prime_iff_eq hq (by norm_num), Nat.prime_dvd_prime_iff_eq hq (by norm_num)] at hdvd
    simpa only [or_assoc] using hdvd
  rcases hcases with rfl | rfl | rfl | rfl
  · exact key (j := 21845) (by decide) (by decide) (by decide +kernel)
  · exact key (j := 4369) (by decide) (by decide) (by decide +kernel)
  · exact key (j := 57054) (by decide) (by decide) (by decide +kernel)
  · exact key (j := 52686) (by decide) (by decide) (by decide +kernel)

/-- The period divides 65535, and no proper divisor is one: a proper divisor divides some `65535 / q`. -/
theorem minimalPeriod_lfsrStep {a : Word} (ha : a ≠ 0) : Function.minimalPeriod lfsrStep a = 65535 := by
  have hperiod : Function.IsPeriodicPt lfsrStep 65535 a := by
    rw [Function.IsPeriodicPt, Function.IsFixedPt, ← lfsrSteps_eq_iterate, lfsrSteps_65535]
  obtain ⟨c, hc⟩ := hperiod.minimalPeriod_dvd
  suffices hone : c = 1 by rw [hc, hone, Nat.mul_one]
  by_contra hne
  obtain ⟨q, hq, d, rfl⟩ := Nat.exists_prime_and_dvd hne
  rw [Nat.mul_left_comm] at hc
  refine lfsrSteps_div_prime_ne_self hq ⟨_, hc⟩ ha ?_
  rw [hc, Nat.mul_div_cancel_left _ hq.pos, lfsrSteps_eq_iterate]
  exact (Function.isPeriodicPt_minimalPeriod lfsrStep a).mul_const d

theorem toNat_mem_Icc_of_ne_zero {w : Word} (h : w ≠ 0) : w.toNat ∈ Finset.Icc 1 65535 := by
  have hne : w.toNat ≠ 0 := BitVec.toNat_ne.1 h
  have hlt := w.isLt
  rw [Finset.mem_Icc]
  omega

/-- Fewer than 65535 steps reach every nonzero state, for they give 65535 different ones (R154). -/
theorem exists_lfsrSteps_eq {a b : Word} (ha : a ≠ 0) (hb : b ≠ 0) : ∃ n, n < 65535 ∧ lfsrSteps n a = b := by
  have hmaps : Set.MapsTo (fun n => (lfsrSteps n a).toNat) (Finset.range 65535) (Finset.Icc 1 65535) :=
    fun n _ => Finset.mem_coe.2 (toNat_mem_Icc_of_ne_zero (lfsrSteps_ne_zero n ha))
  have hinj : Set.InjOn (fun n => (lfsrSteps n a).toNat) (Finset.range 65535) := by
    have hiter := Function.iterate_injOn_Iio_minimalPeriod (f := lfsrStep) (x := a)
    simp only [minimalPeriod_lfsrStep ha, ← lfsrSteps_eq_iterate] at hiter
    rw [Finset.coe_range]
    exact fun m hm n hn h => hiter hm hn (BitVec.eq_of_toNat_eq h)
  have hcard : (Finset.Icc 1 65535).card ≤ (Finset.range 65535).card := by rw [Nat.card_Icc, Finset.card_range]
  obtain ⟨n, hn, heq⟩ :=
    Finset.surjOn_of_injOn_of_card_le _ hmaps hinj hcard (Finset.mem_coe.2 (toNat_mem_Icc_of_ne_zero hb))
  exact ⟨n, Finset.mem_range.1 hn, BitVec.eq_of_toNat_eq heq⟩

end Sys2Proof.Machine
end

section
/-! SUPPORT. What SEED and FLIP answer (R162, R160). -/

namespace Sys2Proof.Machine

variable {s : State}

/-- SEED of a nonzero operand loads it (R162). -/
theorem exec_seed {a : Word} (ha : a ≠ 0) :
    exec (.seed a) s = .next ((s.withSrc { s.src with lfsr := a }).completeOk {}) := by
  rw [exec, execSeed, if_neg ha]

theorem exec_flip (a b : Word) :
    exec (.flip a b) s = .next (s.completeOk { res := some (a ^^^ b), emask := some b }) := rfl

end Sys2Proof.Machine
end

section
/-! PROOFS. The statements about the LFSR (R154), SEED (R162) and FLIP (R160). -/

namespace Sys2Proof.Slice0

open Sys2Proof.Machine

/-- Settles O29: a nonzero state's period under the step is the number of the nonzero states. -/
theorem lfsrRunsThroughAllNonzeroStates : Obligations.LfsrRunsThroughAllNonzeroStates :=
  ⟨fun _ => rfl, fun _ => lfsrStep_ne_zero, fun _ _ => exists_lfsrSteps_eq⟩

/-- Settles O37: the draw of LOSS after SEED is one `advance` of the source that SEED has loaded. -/
theorem seedLoadsTheSource : Obligations.SeedLoadsTheSource := by
  refine ⟨fun s a ha => exec_seed ha, fun s => rfl, fun s a ha hmode hdraws hn => ?_⟩
  have hloss := exec_loss (s := (s.withSrc { s.src with lfsr := a }).completeOk {}) hdraws
  exact ⟨_, _, exec_seed ha, hloss, Source.advance_lfsr_ref _ _ hmode hn⟩

/-- Settles O35: both FLIPs are the shared forced flip, and xor with the mask twice is the operand. -/
theorem flipXorsTheMask : Obligations.FlipXorsTheMask := by
  intro s a b
  have hundo : a ^^^ b ^^^ b = a := by rw [BitVec.xor_assoc, BitVec.xor_self, BitVec.xor_zero]
  exact ⟨exec_flip a b, _, exec_flip (a ^^^ b) b, congrArg some hundo⟩

end Sys2Proof.Slice0
end

section
/-! SUPPORT. The sequencer of PROCESS in equations, one for each ending of a small step, and its run from PROCESS issued
to IDLE (R188). -/

namespace Sys2Proof.Machine

variable (s : State) (q : Seq)

/-- The state with the sequencer at `q`. -/
def State.withSeq (s : State) (q : Seq) : State := { s with seq := q }

@[simp] theorem State.withSeq_seq : (s.withSeq q).seq = q := rfl

/-- A sequencer put where it stands changes nothing. -/
theorem State.withSeq_eq_self (h : s.seq = q) : s.withSeq q = s := by
  subst h
  rfl

/-- What PROCESS publishes when its block loop has given data or a double error, and the source (R181). -/
def State.finishBlocks (s : State) (bits : List Bit) : Option (List DataWord) × Source → State
  | (none, r) => (s.withSrc r).raise .doubleErrorDetected {}
  | (some acc, r) => (s.withSrc r).completeOk { sout := some (.text (outputText s.cfg bits acc)) }

/-- PROCESS where the loss draw is 1 (R181). -/
theorem processText_of_loss (t : List Symbol) (h : s.src.bit s.cfg .lossd = true) :
    processText t s = (s.withSrc (s.src.advance s.cfg)).raise .simulatedLoss {} := by
  rw [processText, if_pos h]

/-- PROCESS where the loss draw is 0: its block loop, then the publication (R181). -/
theorem processText_of_kept (t : List Symbol) (h : s.src.bit s.cfg .lossd = false) :
    processText t s = s.finishBlocks (textToBits t)
      (processBlocks s.cfg (splitBits (textToBits t)) [] (s.src.advance s.cfg)) := by
  rw [processText, if_neg (Bool.eq_false_iff.1 h)]
  rfl

/-- PROCESS leaves the sequencer as it is (R51). -/
theorem processText_seq (t : List Symbol) : (processText t s).seq = s.seq := by
  obtain ⟨-, hp⟩ | ⟨-, r, -, hp⟩ | ⟨-, r, -, hp⟩ := processText_cases t s <;> rw [hp] <;> rfl

variable (bits : List Bit) (blocks : List DataWord) (k : Nat) (acc : List DataWord)

/-- LOSSCHK with the draw 1 (R188). -/
theorem seqStep_losschk_of_loss (h : s.src.bit s.cfg .lossd = true) :
    seqStep (s.withSeq ⟨.losschk, bits, blocks, k, acc⟩) =
      (s.withSrc (s.src.advance s.cfg)).withSeq ⟨.finish .loss, bits, blocks, k, acc⟩ :=
  if_pos h

/-- LOSSCHK with the draw 0: the payload is cut into blocks (R188). -/
theorem seqStep_losschk_of_kept (h : s.src.bit s.cfg .lossd = false) :
    seqStep (s.withSeq ⟨.losschk, bits, blocks, k, acc⟩) =
      (s.withSrc (s.src.advance s.cfg)).withSeq ⟨.block, bits, splitBits bits, 0, []⟩ :=
  if_neg (Bool.eq_false_iff.1 h)

variable {blocks k}

/-- BLOCK with no block left (R188). -/
theorem seqStep_block_nil (h : blocks.drop k = []) :
    seqStep (s.withSeq ⟨.block, bits, blocks, k, acc⟩) = s.withSeq ⟨.finish .ok, bits, blocks, k, acc⟩ := by
  simp only [seqStep, State.withSeq, h]

variable {d : DataWord} {ds : List DataWord}

/-- BLOCK on a block that decodes to a double error (R183, R188). -/
theorem seqStep_block_none (h : blocks.drop k = d :: ds) (hd : (processBlock s.cfg d s.src).1 = none) :
    seqStep (s.withSeq ⟨.block, bits, blocks, k, acc⟩) =
      (s.withSrc (injectorMask s.cfg s.src).2).withSeq ⟨.finish .ded, bits, blocks, k, acc⟩ := by
  have hp : processBlock s.cfg d s.src = (none, (injectorMask s.cfg s.src).2) := Prod.ext hd rfl
  simp only [seqStep, State.withSeq, h, hp]
  rfl

/-- BLOCK on a block that decodes to `x` (R188). -/
theorem seqStep_block_some {x : DataWord} (h : blocks.drop k = d :: ds)
    (hd : (processBlock s.cfg d s.src).1 = some x) :
    seqStep (s.withSeq ⟨.block, bits, blocks, k, acc⟩) =
      (s.withSrc (injectorMask s.cfg s.src).2).withSeq ⟨.block, bits, blocks, k + 1, acc ++ [x]⟩ := by
  have hp : processBlock s.cfg d s.src = (some x, (injectorMask s.cfg s.src).2) := Prod.ext hd rfl
  simp only [seqStep, State.withSeq, h, hp]
  rfl

/-- A run out of IDLE takes one small step and goes on (R188). -/
theorem seqRun_succ {s : State} (n : Nat) (h : s.seq.phase ≠ .idle) : seqRun (n + 1) s = seqRun n (seqStep s) := by
  rw [seqRun]
  split
  next hidle => exact absurd hidle h
  all_goals rfl

/-- A run in IDLE stays (R29). -/
theorem seqRun_idle (n : Nat) : seqRun n (s.withSeq Seq.idle) = s.withSeq Seq.idle := by
  cases n <;> rfl

variable (blocks k)

/-- FINISH publishes the status, and the output text if it is OK, and the run has reached IDLE (R188). -/
theorem seqRun_finish (n : Nat) (st : Status) :
    seqRun (n + 1) (s.withSeq ⟨.finish st, bits, blocks, k, acc⟩) =
      seqPublish st (s.withSeq ⟨.finish st, bits, blocks, k, acc⟩) := by
  rw [seqRun_succ _ (by simp)]
  exact seqRun_idle (seqPublish st (s.withSeq ⟨.finish st, bits, blocks, k, acc⟩)) n

variable {blocks k}

/-- From BLOCK the sequencer runs the block loop of R181 on the blocks left, and reaches IDLE in two more steps
(R188). -/
theorem seqRun_block (h : blocks.drop k = ds) :
    seqRun (ds.length + 2) (s.withSeq ⟨.block, bits, blocks, k, acc⟩) =
      (s.finishBlocks bits (processBlocks s.cfg ds acc s.src)).withSeq Seq.idle := by
  induction ds generalizing s k acc with
  | nil =>
    rw [seqRun_succ _ (by simp), seqStep_block_nil s bits acc h, List.length_nil, seqRun_finish]
    rfl
  | cons d ds ih =>
    rw [seqRun_succ _ (by simp)]
    cases hd : (processBlock s.cfg d s.src).1 with
    | none =>
      rw [seqStep_block_none s bits acc h hd, processBlocks_cons_none _ hd, List.length_cons, seqRun_finish]
      rfl
    | some x =>
      have hds : blocks.drop (k + 1) = ds := by rw [← List.drop_drop, h, List.drop_one, List.tail_cons]
      rw [seqStep_block_some s bits acc h hd, processBlocks_cons_some _ hd]
      exact ih _ _ hds

/-- From LOSSCHK on a payload's bits, one step for the loss draw, one for each block and two more lead to IDLE and to
what PROCESS leaves (R181, R188). -/
theorem seqRun_losschk (t : List Symbol) :
    seqRun (blockCount t.length + 3) (s.withSeq ⟨.losschk, textToBits t, [], 0, []⟩) =
      (processText t s).withSeq Seq.idle := by
  rw [seqRun_succ _ (by simp)]
  cases hl : s.src.bit s.cfg .lossd with
  | true =>
    rw [seqStep_losschk_of_loss _ _ _ _ _ hl, processText_of_loss s t hl, seqRun_finish]
    rfl
  | false =>
    have hlen : blockCount t.length = (splitBits (textToBits t)).length := by
      rw [length_splitBits, length_textToBits]
    rw [seqStep_losschk_of_kept _ _ _ _ _ hl, processText_of_kept s t hl, hlen, seqRun_block _ _ _ List.drop_zero]
    rfl

/-- The run from PROCESS issued, whose first step has taken the operand; PROCESS does not keep it either (R22, R188). -/
theorem seqRun_seqIssue (t : List Symbol) :
    seqRun (blockCount t.length + 3) (seqIssue t s) = (processText t s).withSeq Seq.idle :=
  seqRun_losschk { s with sin := none } t

end Sys2Proof.Machine
end

section
/-! SUPPORT. ENCODE, CORRUPT and DECODE as commands are the pipeline on a block and on a list of blocks (R181, R183). -/

namespace Sys2Proof.Slice0

open Sys2Proof.Machine

variable {s : State}

/-- The state ENCODE and CORRUPT leave on the data `d`. -/
def corrupted (s : State) (d : DataWord) : State :=
  ((s.completeOk { res := some (encodeBlock d) }).withSrc (injectorMask s.cfg s.src).2).completeOk
    { res := some (encodeBlock d ^^^ (injectorMask s.cfg s.src).1), emask := some (injectorMask s.cfg s.src).1 }

/-- The three commands on a block end where DECODE ends on the corrupted codeword. -/
theorem blockRun_of_decode {d : DataWord} {t : State} (h : drawsAllowed s.cfg = true)
    (ht : exec (.decode (encodeBlock d ^^^ (injectorMask s.cfg s.src).1)) (corrupted s d) = .next t) :
    BlockRun d s t :=
  ⟨_, _, _, _, exec_encode d, rfl, exec_corrupt _ h, rfl, ht⟩

/-- A block that the pipeline fails on ends with DED by the three commands, its draws taken (R183). -/
theorem exists_blockRun_of_none {d : DataWord} (h : drawsAllowed s.cfg = true)
    (hd : (processBlock s.cfg d s.src).1 = none) :
    ∃ u, BlockRun d s u ∧ u.src = (injectorMask s.cfg s.src).2 ∧ u.result.status = some .ded :=
  ⟨_, blockRun_of_decode h (exec_decode_none hd), rfl, rfl⟩

/-- A block that the pipeline decodes to `x` ends with OK and `x` by the three commands (R181). -/
theorem exists_blockRun_of_some {d x : DataWord} (h : drawsAllowed s.cfg = true)
    (hd : (processBlock s.cfg d s.src).1 = some x) :
    ∃ u, BlockRun d s u ∧ u.cfg = s.cfg ∧ u.src = (injectorMask s.cfg s.src).2 ∧ u.result.status = some .ok ∧
      u.result.res = some (x.zeroExtend 16) :=
  ⟨_, blockRun_of_decode h (exec_decode_some hd), rfl, rfl, rfl, rfl⟩

/-- The commands block by block give the data of the block loop, behind what it had before, and leave its source
(R181, R183). -/
theorem exists_blocksRun (ds acc : List DataWord) (h : drawsAllowed s.cfg = true) :
    ∃ data t, BlocksRun ds s data t ∧ processBlocks s.cfg ds acc s.src = (data.map (acc ++ ·), t.src) := by
  induction ds generalizing s acc with
  | nil => exact ⟨some [], s, ⟨rfl, rfl⟩, by simp [processBlocks]⟩
  | cons d ds ih =>
    cases hd : (processBlock s.cfg d s.src).1 with
    | none =>
      obtain ⟨u, hrun, hsrc, hst⟩ := exists_blockRun_of_none h hd
      exact ⟨none, u, ⟨u, hrun, .inl ⟨hst, rfl, rfl⟩⟩, by rw [processBlocks_cons_none _ hd, hsrc]; rfl⟩
    | some x =>
      obtain ⟨u, hrun, hcfg, hsrc, hst, hres⟩ := exists_blockRun_of_some h hd
      obtain ⟨more, t, hmore, hloop⟩ := ih (s := u) (acc ++ [x]) (hcfg ▸ h)
      refine ⟨more.map (x :: ·), t, ⟨u, hrun, .inr ⟨hst, x, more, hres, hmore, rfl⟩⟩, ?_⟩
      rw [processBlocks_cons_some _ hd, ← hsrc, ← hcfg, hloop, Option.map_map]
      simp only [Function.comp_def, List.append_assoc, List.singleton_append]

/-- The block loop of PROCESS by commands: its data and its source, and where it gives data they are the blocks
(R181, R183). -/
theorem exists_blocksRun_loop (ds : List DataWord) (h : drawsAllowed s.cfg = true) :
    ∃ data t, BlocksRun ds s data t ∧ processBlocks s.cfg ds [] s.src = (data, t.src) ∧
      (data = some ds ∨ data = none) := by
  obtain ⟨data, t, hrun, hloop⟩ := exists_blocksRun ds [] h
  simp only [List.nil_append, Option.map_id'] at hloop
  have hdata := processBlocks_data s.cfg ds [] s.src
  rw [hloop] at hdata
  exact ⟨data, t, hrun, hloop, hdata⟩

/-- There are at most as many blocks as bits (R104). -/
theorem blockCount_le (n : Nat) : blockCount n ≤ n := by
  unfold blockCount
  omega

/-- The output text by the padding mode, in the words of O56 (R101, R184). -/
theorem outputText_eq (c : Config) (bits : List Bit) (acc : List DataWord) :
    outputText c bits acc = (match c.padMode with
      | .keepPadding => joinBlocks acc
      | .truncate => (joinBlocks acc).take bits.length).map fun x : Bit => if x then 0x31 else 0x30 := by
  cases hpad : c.padMode <;> simp only [outputText, hpad] <;> rfl

end Sys2Proof.Slice0
end

section
/-! PROOFS. PROCESS is its sequencer's small steps (R188), and its parts block by block (R181, R183). -/

namespace Sys2Proof.Slice0

open Sys2Proof.Machine

/-- Settles O44: the run leaves what PROCESS leaves, with the sequencer in IDLE, where it was. -/
theorem sequencerRefinesProcess : Obligations.SequencerRefinesProcess := by
  intro s t hidle hs hl hdraws
  have hrun := seqRun_seqIssue s t
  have hkeep := (processText t s).withSeq_eq_self Seq.idle ((processText_seq s t).trans hidle)
  refine ⟨?_, by rw [hrun]; rfl⟩
  rw [hrun, hkeep]
  exact exec_process hs hl hdraws

/-- Settles O56: by the loss draw, and then by what the block loop gives, which is what the commands give. -/
theorem processIsItsPartsBlockByBlock : Obligations.ProcessIsItsPartsBlockByBlock := by
  intro s t hl hdraws
  have hbits : (textToBits t).length ≤ s.cfg.maxChars := by rwa [length_textToBits]
  have hprocess : exec .process { s with sin := some (.text t) } = .next (processText t s) :=
    exec_process rfl hl hdraws
  refine ⟨textToBits t, splitBits (textToBits t), _, ⟨_, exec_tobits rfl hl, rfl, rfl⟩,
    ⟨_, exec_split rfl hbits, rfl, rfl⟩, exec_loss hdraws, ?_⟩
  cases hloss : s.src.bit s.cfg .lossd with
  | true =>
    rw [hprocess, processText_of_loss s t hloss]
    exact .inl ⟨rfl, rfl⟩
  | false =>
    obtain ⟨data, s2, hrun, hloop, hdata⟩ := exists_blocksRun_loop (splitBits (textToBits t))
      (s := (s.withSrc (s.src.advance s.cfg)).completeOk { res := some (bitToWord false) }) hdraws
    have hend := (processText_of_kept s t hloss).trans (congrArg (s.finishBlocks (textToBits t)) hloop)
    refine .inr ⟨rfl, data, s2, hrun, ?_⟩
    rw [hprocess, hend]
    obtain rfl | rfl := hdata
    · have hblocks : (splitBits (textToBits t)).length ≤ s.cfg.maxChars := by
        rw [length_splitBits, length_textToBits]
        exact (blockCount_le _).trans hl
      refine ⟨_, ⟨_, exec_reassemble rfl hblocks, rfl, rfl⟩, ?_⟩
      rw [State.finishBlocks, outputText_eq]
      rfl
    · rfl

end Sys2Proof.Slice0
end

section
/-! SUPPORT. Which commands and which draws give the status LOSS (R24, R161, R203). -/

namespace Sys2Proof.Slice0

open Sys2Proof.Machine

/-- The loss flag in `RES` is 1 exactly where the draw is (R161). -/
theorem bitToWord_eq_one_iff {b : Bit} : bitToWord b = 1 ↔ b = true := by
  cases b <;> decide

/-- PROCESS ends with LOSS exactly where its loss draw is 1 (R181, R203). -/
theorem processText_status_eq_loss_iff (t : List Symbol) (s : State) :
    (processText t s).result.status = some .loss ↔ s.src.bit s.cfg .lossd = true := by
  obtain ⟨hdraw, hp⟩ | ⟨hdraw, r, -, hp⟩ | ⟨hdraw, r, -, hp⟩ := processText_cases t s
  · simp [hp, hdraw, BlockError.status]
  · simp [hp, hdraw, BlockError.status]
  · simp [hp, hdraw]

/-- R24's table lists LOSS for PROCESS alone. -/
theorem tableFields_loss {i : Instr} (h : i ≠ .process) : tableFields i .loss = none := by
  cases i with
  | process => exact absurd rfl h
  | _ => rfl

end Sys2Proof.Slice0
end

section
/-! PROOFS. The statement about the simulated loss (R203). -/

namespace Sys2Proof.Slice0

open Sys2Proof.Machine

/-- Settles O42: PROCESS and LOSS decide by the same draw, and R24's table, which every completed command keeps to, has
no other row for LOSS. -/
theorem simulatedLossIsTheLossDraw : Obligations.SimulatedLossIsTheLossDraw := by
  refine ⟨fun s t hs hl hdraws => ?_, fun i s t hi hexec hloss => ?_⟩
  · refine ⟨_, _, exec_process hs hl hdraws, exec_loss hdraws, rfl, ?_, fun hloss => ?_⟩
    · rw [processText_status_eq_loss_iff, State.completeOk_result, Option.some_inj, bitToWord_eq_one_iff]
    · rw [processText_of_loss s t ((processText_status_eq_loss_iff t s).1 hloss)]
      exact ⟨rfl, rfl⟩
  · obtain ⟨st, hst, hrow, -⟩ := commandsProduceTheirFields i s t hexec
    obtain rfl := Option.some_inj.1 (hst.symm.trans hloss)
    cases (tableFields_loss hi).symm.trans hrow

end Sys2Proof.Slice0
end

section
/-! SUPPORT. The decoder by opcode, and the command word by its format's mask: what each format keeps of a word
(R71-R75). -/

namespace Sys2Proof

/-- Format F0 keeps `OP` (R72). -/
theorem and_f0 (w : CmdWord) : w &&& 0xF00000000 = packCmd (opField w) 0 0 := by
  conv_lhs => rw [← packCmd_fields w,
    show (0xF00000000 : CmdWord) = packCmd (BitVec.allOnes 4) 0 0 by decide, packCmd_and]
  simp only [BitVec.and_allOnes]
  exact congrArg₂ (packCmd _) BitVec.and_zero BitVec.and_zero

/-- Formats FC and FS keep `OP` and `A` (R72). -/
theorem and_fc (w : CmdWord) : w &&& 0xFFFFF0000 = packCmd (opField w) (aField w) 0 := by
  conv_lhs => rw [← packCmd_fields w,
    show (0xFFFFF0000 : CmdWord) = packCmd (BitVec.allOnes 4) (BitVec.allOnes 16) 0 by decide, packCmd_and]
  simp only [BitVec.and_allOnes]
  exact congrArg (packCmd _ _) BitVec.and_zero

/-- The data word's mask in `A` cuts the field to the data word, zero-extended (R60, R72). -/
theorem aField_and_dataMask (w : CmdWord) : aField w &&& 0x07FF = (dField w).zeroExtend 16 := by
  apply BitVec.eq_of_getLsbD_eq
  intro i hi
  have hmask : ∀ i < 16, (0x07FF : Word).getLsbD i = decide (i < 11) := by decide
  rw [BitVec.getLsbD_and, hmask i hi]
  simp [dField, hi, Bool.and_comm]

/-- Format FD keeps `OP` and the data word (R72). -/
theorem and_fd (w : CmdWord) : w &&& 0xF07FF0000 = packCmd (opField w) ((dField w).zeroExtend 16) 0 := by
  conv_lhs => rw [← packCmd_fields w,
    show (0xF07FF0000 : CmdWord) = packCmd (BitVec.allOnes 4) 0x07FF 0 by decide, packCmd_and, aField_and_dataMask]
  rw [BitVec.and_allOnes]
  exact congrArg (packCmd _ _) BitVec.and_zero

/-- Format FCM keeps the whole word (R72). -/
theorem and_fcm (w : CmdWord) : w &&& 0xFFFFFFFFF = packCmd (opField w) (aField w) (bField w) := by
  rw [packCmd_fields, show (0xFFFFFFFFF : CmdWord) = BitVec.allOnes 36 by decide, BitVec.and_allOnes]

/-- A command's opcode does not depend on its operands (R73). -/
@[simp] theorem opcode_readFrom (w : CmdWord) (i : Instr) : (i.readFrom w).opcode = i.opcode := by cases i <;> rfl

/-- What a word spells has the word's opcode (R73). -/
theorem opcode_decodeWord (w : CmdWord) : (decodeWord w).opcode = opField w := by
  have hop : ∀ op : BitVec 4, (decodeWord (packCmd op 0 0)).opcode = op := by decide
  rw [decodeWord_eq_readFrom (w' := packCmd (opField w) 0 0) (opField_packCmd _ _ _).symm, opcode_readFrom, hop]

/-- No word spells the pseudo-instruction (R81). -/
theorem decodeWord_ne_flippos (w : CmdWord) (cw : Word) (p : Nat) (q : Option Nat) :
    decodeWord w ≠ .flippos cw p q := by
  unfold decodeWord
  split <;> exact Instr.noConfusion

/-- The word of a command with operands read from `w` is `w` with the bits its format ignores cleared (R72, R75). -/
theorem encode_readFrom {w : CmdWord} {i : Instr} (hop : i.opcode = opField w)
    (hi : ∀ cw p q, i ≠ .flippos cw p q) : encode (i.readFrom w) = w &&& i.usedBits := by
  cases i with
  | encode d => rw [Instr.usedBits, and_fd, ← hop]; rfl
  | decode cw => rw [Instr.usedBits, and_fc, ← hop]; rfl
  | syndrome cw => rw [Instr.usedBits, and_fc, ← hop]; rfl
  | corrupt cw => rw [Instr.usedBits, and_fc, ← hop]; rfl
  | flip cw m => rw [Instr.usedBits, and_fcm, ← hop]; rfl
  | seed a => rw [Instr.usedBits, and_fc, ← hop]; rfl
  | flippos cw p q => exact absurd rfl (hi cw p q)
  | _ => rw [Instr.usedBits, and_f0, ← hop]; rfl

/-- The command that the word of a command spells: itself, but FLIPPOS is spelled as the FLIP it expands to (R81). -/
def Instr.expand : Instr → Instr
  | .flippos cw p q => .flip cw (flipposMask p q)
  | i => i

/-- Every command is read back from its word (R73, R80). -/
theorem decodeWord_encode (i : Instr) : decodeWord (encode i) = i.expand := by
  cases i <;> simp [encode, decodeWord, Instr.expand]

end Sys2Proof
end

section
/-! PROOFS. The statements about the opcode map and the codec of command words (R71-R75, R81). -/

namespace Sys2Proof.Slice0

open Sys2Proof.Machine

/-- Settles O9: a word is its fields packed, so decoding reads back what `encode` packs, and encoding packs the fields
that the format's mask keeps. -/
theorem decodeAndEncodeAgree : Obligations.DecodeAndEncodeAgree := by
  refine ⟨fun i _ => ?_, fun w => ?_⟩
  · rw [decodeWord_encode]
    cases i <;> rfl
  · conv_lhs => rw [decodeWord_eq_readFrom (w := w) rfl]
    exact encode_readFrom (opcode_decodeWord w) (decodeWord_ne_flippos w)

/-- Settles O11: the opcode is read back, and the reserved rows of the map are those of R74. -/
theorem opcodeAloneSelectsTheCommand : Obligations.OpcodeAloneSelectsTheCommand := by
  have hmap : ∀ i : Instr, isReserved i = true ↔ i.opcode ∈ [0x0#4, 0xD#4, 0xE#4, 0xF#4] := by
    intro i
    cases i <;> simp only [isReserved, Instr.opcode] <;> decide
  intro w
  have hop : (decodeWord w).opcode = w.extractLsb' 32 4 := opcode_decodeWord w
  exact ⟨hop, by rw [hmap, hop]⟩

/-- Settles O8: each word is decoded. -/
theorem writtenOutWordsDecode : Obligations.WrittenOutWordsDecode := by
  unfold Obligations.WrittenOutWordsDecode
  decide

end Sys2Proof.Slice0
end

section
/-! SUPPORT. A command sees its operand, `MAX_CHARS` and, if it draws, the values of its draws, and nothing else: states
that agree on these give the same record and sources that correspond (R33, R49, R52). The frame of every command
follows. -/

namespace Sys2Proof.Slice0

open Sys2Proof.Machine

/-- The outcome with its next state replaced. -/
def mapNext (f : State → State) : Out → Out
  | .next t => .next (f t)
  | .fault r => .fault r
  | .refused r => .refused r

/-- Draws under `c'` from the image of a source go as draws under `c` from the source itself. -/
structure DrawsAgree (c c' : Config) (φ : Source → Source) : Prop where
  allowed : drawsAllowed c' = drawsAllowed c
  padMode : c'.padMode = c.padMode
  bit : ∀ k r, (φ r).bit c' k = r.bit c k
  pos : ∀ r, (φ r).pos c' = r.pos c
  advance : ∀ r, (φ r).advance c' = φ (r.advance c)

/-- Draws agree with themselves. -/
theorem DrawsAgree.refl (c : Config) : DrawsAgree c c id := ⟨rfl, rfl, fun _ _ => rfl, fun _ => rfl, fun _ => rfl⟩

variable {c c' : Config} {φ : Source → Source}

theorem DrawsAgree.injectorMask (h : DrawsAgree c c' φ) (r : Source) :
    injectorMask c' (φ r) = ((injectorMask c r).1, φ (injectorMask c r).2) := by
  simp only [Machine.injectorMask, h.advance, h.bit, h.pos]
  split_ifs <;> rfl

theorem DrawsAgree.processBlock (h : DrawsAgree c c' φ) (d : DataWord) (r : Source) :
    (processBlock c' d (φ r)).1 = (processBlock c d r).1 := by
  simp only [Machine.processBlock, h.injectorMask]

theorem DrawsAgree.processBlocks (h : DrawsAgree c c' φ) (ds acc : List DataWord) (r : Source) :
    processBlocks c' ds acc (φ r) = ((processBlocks c ds acc r).1, φ (processBlocks c ds acc r).2) := by
  induction ds generalizing acc r with
  | nil => rfl
  | cons d ds ih =>
    have himage := h.processBlock d r
    have hsrc : (Machine.injectorMask c' (φ r)).2 = φ (Machine.injectorMask c r).2 := by rw [h.injectorMask]
    cases hd : (Machine.processBlock c d r).1 with
    | none => rw [processBlocks_cons_none c hd, processBlocks_cons_none c' (himage.trans hd), hsrc]
    | some x => rw [processBlocks_cons_some c hd, processBlocks_cons_some c' (himage.trans hd), hsrc, ih]

theorem DrawsAgree.outputText (h : DrawsAgree c c' φ) (bits : List Bit) (acc : List DataWord) :
    outputText c' bits acc = outputText c bits acc := by
  simp only [Machine.outputText, h.padMode]

variable {s s' : State}

theorem DrawsAgree.processText (h : DrawsAgree s.cfg s'.cfg φ) (hsrc : s'.src = φ s.src) (t : List Symbol) :
    processText t s' = Completed s' (φ (processText t s).src) (processText t s).result := by
  have hloss := h.bit .lossd s.src
  rw [← hsrc] at hloss
  cases hl : s.src.bit s.cfg .lossd with
  | true =>
    rw [processText_of_loss s t hl, processText_of_loss s' t (hloss.trans hl), hsrc, h.advance]
    rfl
  | false =>
    rw [processText_of_kept s t hl, processText_of_kept s' t (hloss.trans hl), hsrc, h.advance, h.processBlocks]
    obtain ⟨data, r⟩ := Machine.processBlocks s.cfg (splitBits (textToBits t)) [] (s.src.advance s.cfg)
    cases data with
    | none => rfl
    | some acc =>
      rw [State.finishBlocks, State.finishBlocks, h.outputText]
      rfl

variable (f : State → State)

/-- The length rule reads `MAX_CHARS` alone (R41). -/
theorem tooLong_congr (h : c'.maxChars = c.maxChars) (n : Nat) : tooLong c' n = tooLong c n := by
  rw [tooLong, tooLong, h]

theorem withText_mapNext {k k' : List Symbol → Out} (hsin : s'.sin = s.sin) (hmax : s'.cfg.maxChars = s.cfg.maxChars)
    (hk : ∀ x, k' x = mapNext f (k x)) : s'.withText k' = mapNext f (s.withText k) := by
  simp only [State.withText, hsin, tooLong_congr hmax, hk]
  split
  · rw [apply_ite (mapNext f)]
    rfl
  all_goals rfl

theorem withBits_mapNext {k k' : List Bit → Out} (hsin : s'.sin = s.sin) (hmax : s'.cfg.maxChars = s.cfg.maxChars)
    (hk : ∀ x, k' x = mapNext f (k x)) : s'.withBits k' = mapNext f (s.withBits k) := by
  simp only [State.withBits, hsin, tooLong_congr hmax, hk]
  split
  · rw [apply_ite (mapNext f)]
    rfl
  all_goals rfl

theorem withBlocks_mapNext {k k' : List DataWord → Out} (hsin : s'.sin = s.sin)
    (hmax : s'.cfg.maxChars = s.cfg.maxChars) (hk : ∀ x, k' x = mapNext f (k x)) :
    s'.withBlocks k' = mapNext f (s.withBlocks k) := by
  simp only [State.withBlocks, hsin, tooLong_congr hmax, hk]
  split
  · rw [apply_ite (mapNext f)]
    rfl
  all_goals rfl

theorem withDraws_mapNext {o o' : Out} (h : drawsAllowed s'.cfg = drawsAllowed s.cfg) (ho : o' = mapNext f o) :
    s'.withDraws o' = mapNext f (s.withDraws o) := by
  simp only [State.withDraws, h, ho]
  split <;> rfl

/-- What a command answers in a state that agrees with `s` on all the command sees: the same record, in that state's
own frame, and the corresponding source. -/
theorem exec_mapNext (i : Instr) (hsin : s'.sin = s.sin) (hmax : s'.cfg.maxChars = s.cfg.maxChars)
    (hsrc : s'.src = φ s.src) (hdraws : takesDraws i = true → DrawsAgree s.cfg s'.cfg φ)
    (hseed : ∀ a, i = .seed a → φ { s.src with lfsr := a } = { φ s.src with lfsr := a }) :
    exec i s' = mapNext (fun t => Completed s' (φ t.src) t.result) (exec i s) := by
  have hanswer : ∀ r, s'.completeOk r = Completed s' (φ s.src) { r with status := some .ok } := by
    intro r
    rw [← hsrc]
    rfl
  cases i with
  | tobits => exact withText_mapNext _ hsin hmax fun x => congrArg _ (hanswer _)
  | totext => exact withBits_mapNext _ hsin hmax fun x => congrArg _ (hanswer _)
  | split => exact withBits_mapNext _ hsin hmax fun x => congrArg _ (hanswer _)
  | reassemble => exact withBlocks_mapNext _ hsin hmax fun x => congrArg _ (hanswer _)
  | encode d => exact congrArg _ (hanswer _)
  | decode cw =>
    cases hd : decodeBlock cw with
    | none => rw [exec_decode_none hd, exec_decode_none hd, mapNext, State.raise_src, ← hsrc]; rfl
    | some d => rw [exec_decode_some hd, exec_decode_some hd, hanswer]; rfl
  | syndrome cw => exact congrArg _ (hanswer _)
  | corrupt cw =>
    have h := hdraws rfl
    refine withDraws_mapNext _ h.allowed ?_
    rw [hsrc, h.injectorMask]
    rfl
  | flip cw m => exact congrArg _ (hanswer _)
  | loss =>
    have h := hdraws rfl
    refine withDraws_mapNext _ h.allowed ?_
    rw [hsrc, h.advance, h.bit]
    rfl
  | process =>
    have h := hdraws rfl
    refine withText_mapNext _ hsin hmax fun x => withDraws_mapNext _ h.allowed ?_
    rw [h.processText hsrc]
    rfl
  | seed a =>
    rw [exec, execSeed, exec, execSeed]
    split
    · rfl
    · rw [hsrc, ← hseed a rfl]; rfl
  | reserved0 => rfl
  | reservedD => rfl
  | reservedE => rfl
  | reservedF => rfl
  | flippos cw p q => exact congrArg _ (hanswer _)

variable {t : State} {i : Instr}

/-- The frame of every command: a completed command has published a record and left a source, and nothing else. -/
theorem exec_frame (h : exec i s = .next t) : t = Completed s t.src t.result := by
  have hself := exec_mapNext (s := s) (s' := s) i rfl rfl rfl (fun _ => DrawsAgree.refl s.cfg) fun _ _ => rfl
  rw [h] at hself
  exact Host.Outcome.next.inj hself

/-- A command that neither draws nor seeds leaves the random source alone: it answers the same whatever source the
source is replaced by. -/
theorem exec_src (hdraws : takesDraws i = false) (hseed : isSeed i = false) (h : exec i s = .next t) :
    t.src = s.src := by
  have hconst := exec_mapNext (s := s) (s' := s) (φ := fun _ => s.src) i rfl rfl rfl
    (fun hd => absurd hd (by rw [hdraws]; decide)) (fun a ha => by subst ha; cases hseed)
  rw [h] at hconst
  rw [Host.Outcome.next.inj hconst]
  rfl

/-- PROCESS completes only on a Text of legal length, with draws allowed, and as its pseudocode says (R181). -/
theorem exec_process_eq_next (h : exec .process s = .next t) :
    ∃ x, s.sin = some (.text x) ∧ x.length ≤ s.cfg.maxChars ∧ drawsAllowed s.cfg = true ∧ t = processText x s := by
  obtain ⟨x, hx, hl, hk⟩ := withText_eq_next h
  obtain ⟨hdraws, ⟨⟩⟩ := withDraws_eq_next hk
  exact ⟨x, hx, hl, hdraws, rfl⟩

/-- The commands that draw. -/
theorem takesDraws_cases (h : takesDraws i = true) : (∃ cw, i = .corrupt cw) ∨ i = .loss ∨ i = .process := by
  cases i with
  | corrupt cw => exact .inl ⟨cw, rfl⟩
  | loss => exact .inr (.inl rfl)
  | process => exact .inr (.inr rfl)
  | _ => cases h

/-- SEED is the command that `isSeed` tells. -/
theorem isSeed_cases (h : isSeed i = true) : ∃ a, i = .seed a := by
  cases i with
  | seed a => exact ⟨a, rfl⟩
  | _ => cases h

end Sys2Proof.Slice0
end

section
/-! PROOFS. The statements about what reaches a command and what a command leaves alone (R22, R25, R33, R49, R52, R152,
R214). -/

namespace Sys2Proof.Slice0

open Sys2Proof.Machine

/-- Settles O50: the frame, and for the source the commands that neither draw nor seed. -/
theorem commandsLeaveTheRestAlone : Obligations.CommandsLeaveTheRestAlone := by
  intro i s t h
  have hframe := exec_frame h
  refine ⟨by rw [hframe]; rfl, by rw [hframe]; rfl, by rw [hframe]; rfl, by rw [hframe]; rfl,
    fun hdraws hseed => exec_src hdraws hseed h, fun a ha => ?_⟩
  subst ha
  obtain ⟨-, rfl⟩ := exec_seed_eq_next h
  rfl

/-- Settles O51: SEED gives the same record always, and another command without draws answers with the same record
whatever the source is replaced by. -/
theorem commandsWithoutDrawsAreFunctions : Obligations.CommandsWithoutDrawsAreFunctions := by
  intro i s s' t hdraws hsin hmax h
  cases hi : isSeed i with
  | true =>
    obtain ⟨a, rfl⟩ := isSeed_cases hi
    obtain ⟨ha, rfl⟩ := exec_seed_eq_next h
    exact ⟨_, exec_seed ha, rfl⟩
  | false =>
    have hanswer := exec_mapNext (φ := fun _ => s'.src) i hsin hmax rfl
      (fun hd => absurd hd (by rw [hdraws]; decide)) (fun a ha => by subst ha; cases hi)
    rw [h] at hanswer
    exact ⟨_, hanswer, rfl⟩

/-- Settles O52: the record and the sequencer are nothing that a command sees. -/
theorem earlierResultsReachNoCommand : Obligations.EarlierResultsReachNoCommand := by
  intro i s r q
  have hanswer := exec_mapNext (s := s) (s' := { s with result := r, seq := q }) i rfl rfl rfl
    (fun _ => DrawsAgree.refl s.cfg) fun _ _ => rfl
  refine ⟨fun t h => ?_, fun f h => ?_⟩
  · rw [hanswer, h, mapNext, exec_frame h]
    rfl
  · rw [hanswer, h]
    rfl

/-- Under FREE mode draws do not see `lfsr` (R152). -/
theorem drawsAgree_lfsr {c : Config} (hfree : c.rngMode = .free) (l : Word) :
    DrawsAgree c c fun r => { r with lfsr := l } where
  allowed := rfl
  padMode := rfl
  bit k r := by simp only [Source.bit, hfree]; rfl
  pos r := by simp only [Source.pos, hfree]; rfl
  advance r := by simp only [Source.advance, hfree]

/-- Under FREE mode a command but SEED answers the same with another `lfsr`, which it leaves as it was (R152). -/
theorem exec_lfsr {s t : State} {i : Instr} (hfree : s.cfg.rngMode = .free) (hseed : isSeed i = false)
    (h : exec i s = .next t) (l : Word) :
    exec i { s with src := { s.src with lfsr := l } } = .next { t with src := { t.src with lfsr := l } } := by
  rw [exec_mapNext (s := s) (s' := { s with src := { s.src with lfsr := l } }) i rfl rfl rfl
    (fun _ => drawsAgree_lfsr hfree l) (fun a ha => by subst ha; cases hseed), h, mapNext, exec_frame h]
  rfl

/-- The loss flag in `RES` (R23, R161). -/
theorem bitToWord_eq (b : Bit) : bitToWord b = if b then 1 else 0 := by cases b <;> rfl

/-- Settles O38: `lfsr` replaced by itself shows that it is left alone, and one answer of the environment gives LOSS
either value. -/
theorem freeDrawsIgnoreTheLfsr : Obligations.FreeDrawsIgnoreTheLfsr := by
  intro s hfree
  refine ⟨fun i t hseed h => ⟨?_, exec_lfsr hfree hseed h⟩, fun b => ?_⟩
  · have hsame := h.symm.trans (exec_lfsr hfree hseed h s.lfsr)
    exact (congrArg State.lfsr (Host.Outcome.next.inj hsame) :)
  · have hdraws : drawsAllowed s.cfg = true := by rw [drawsAllowed, hfree]
    refine ⟨[⟨b, 0, []⟩], _, exec_loss hdraws, congrArg some ?_⟩
    rw [Source.bit, hfree]
    exact bitToWord_eq b

/-- The source without peers' acts (R214). -/
def aloneSource (r : Source) : Source := { r with env := r.env.map fun e => { e with peers := [] } }

theorem aloneSource_next_bit (r : Source) : (aloneSource r).next.bit = r.next.bit := by
  obtain ⟨l, _ | ⟨e, es⟩, n⟩ := r <;> rfl

theorem aloneSource_next_pos (r : Source) : (aloneSource r).next.pos = r.next.pos := by
  obtain ⟨l, _ | ⟨e, es⟩, n⟩ := r <;> rfl

/-- Under FREE mode draws do not see the peers (R152, R214). -/
theorem drawsAgree_alone {c : Config} (hfree : c.rngMode = .free) :
    DrawsAgree c { c with nInstances := 1 } aloneSource where
  allowed := rfl
  padMode := rfl
  bit k r := by simp only [Source.bit, hfree, aloneSource_next_bit]
  pos r := by simp only [Source.pos, hfree, aloneSource_next_pos]
  advance r := by simp only [Source.advance, hfree, aloneSource, List.map_tail]

/-- Settles O53: what the peers do is nothing that a command sees under FREE mode. -/
theorem freeInstanceBehavesAsIfAlone : Obligations.FreeInstanceBehavesAsIfAlone := by
  intro i s t hfree h
  rw [exec_mapNext (s := s) (s' := alone s) i rfl rfl rfl (fun _ => drawsAgree_alone hfree) fun _ _ => rfl, h, mapNext,
    exec_frame h]
  rfl

end Sys2Proof.Slice0
end

section
/-! SUPPORT. The invariant through a command, a peer's act and a step of the sequencer (R28, R29, R188). -/

namespace Sys2Proof.Slice0

open Sys2Proof.Machine

variable {s t : State} {i : Instr}

/-- A legal configuration resets `lfsr` to something but 0 (R9). -/
theorem lfsrReset_ne_zero {c : Config} (h : c.wf = true) : c.lfsrReset ≠ 0 := by
  simp only [Config.wf, Bool.and_eq_true, bne_iff_ne] at h
  obtain ⟨⟨⟨⟨hreset, -⟩, -⟩, -⟩, -⟩ := h
  exact hreset

theorem processText_lfsr_ne_zero (hc : s.cfg.lfsrReset ≠ 0) (h : s.lfsr ≠ 0) (x : List Symbol) :
    (processText x s).lfsr ≠ 0 := by
  have hadv := advance_lfsr_ne_zero hc h
  have hblocks := processBlocks_lfsr_ne_zero hc (splitBits (textToBits x)) [] hadv
  obtain ⟨-, hp⟩ | ⟨-, r, hr, hp⟩ | ⟨-, r, hr, hp⟩ := processText_cases x s
  · rw [hp]; exact hadv
  · rw [hr] at hblocks
    rw [hp]; exact hblocks
  · rw [hr] at hblocks
    rw [hp]; exact hblocks

/-- No command leaves 0 in `lfsr` (R28). -/
theorem exec_lfsr_ne_zero (hc : s.cfg.lfsrReset ≠ 0) (hl : s.lfsr ≠ 0) (h : exec i s = .next t) : t.lfsr ≠ 0 := by
  cases hi : isSeed i with
  | true =>
    obtain ⟨a, rfl⟩ := isSeed_cases hi
    obtain ⟨ha, rfl⟩ := exec_seed_eq_next h
    exact ha
  | false =>
    cases hd : takesDraws i with
    | false =>
      rw [State.lfsr, exec_src hd hi h]
      exact hl
    | true =>
      obtain ⟨cw, rfl⟩ | rfl | rfl := takesDraws_cases hd
      · obtain ⟨-, ⟨⟩⟩ := withDraws_eq_next h
        exact injectorMask_lfsr_ne_zero hc hl
      · obtain ⟨-, ⟨⟩⟩ := withDraws_eq_next h
        exact advance_lfsr_ne_zero hc hl
      · obtain ⟨x, -, -, -, rfl⟩ := exec_process_eq_next h
        exact processText_lfsr_ne_zero hc hl x

/-- The mapper's position is at most 16 (R69, R126). -/
theorem errorPosition_le (v : Verdict) (y : BitVec 4) : errorPosition v y ≤ 16#5 := by
  revert y
  cases v <;> decide

/-- A record of the diagnosis of a word is legal where its status is OK, or DED with no data and no output. -/
theorem diagnosis_wf (cw : Word) (res : Option Word) :
    Result.wf { diagnosis cw with res := res, status := some .ok } = true ∧
    Result.wf { diagnosis cw with status := some .ded, sout := none } = true := by
  simp [Result.wf, diagnosis, verdictOf, errorPosition_le]

theorem processText_result_wf (x : List Symbol) (s : State) : (processText x s).result.wf = true := by
  obtain ⟨-, hp⟩ | ⟨-, r, -, hp⟩ | ⟨-, r, -, hp⟩ := processText_cases x s <;> rw [hp] <;> rfl

/-- Every command publishes a legal record (R44, R67, R69, R128, R204). -/
theorem exec_result_wf (h : exec i s = .next t) : t.result.wf = true := by
  cases i with
  | tobits => obtain ⟨x, -, -, ⟨⟩⟩ := withText_eq_next h; rfl
  | totext => obtain ⟨x, -, -, ⟨⟩⟩ := withBits_eq_next h; rfl
  | split => obtain ⟨x, -, -, ⟨⟩⟩ := withBits_eq_next h; rfl
  | reassemble => obtain ⟨x, -, -, ⟨⟩⟩ := withBlocks_eq_next h; rfl
  | encode d => cases h; rfl
  | decode cw =>
    cases hd : decodeBlock cw with
    | none => cases (exec_decode_none hd).symm.trans h; exact (diagnosis_wf cw none).2
    | some d => cases (exec_decode_some hd).symm.trans h; exact (diagnosis_wf cw _).1
  | syndrome cw => cases h; exact (diagnosis_wf cw none).1
  | corrupt cw => obtain ⟨-, ⟨⟩⟩ := withDraws_eq_next h; rfl
  | flip cw m => cases h; rfl
  | loss => obtain ⟨-, ⟨⟩⟩ := withDraws_eq_next h; rfl
  | process =>
    obtain ⟨x, -, -, -, rfl⟩ := exec_process_eq_next h
    exact processText_result_wf x s
  | seed a => obtain ⟨-, rfl⟩ := exec_seed_eq_next h; rfl
  | reserved0 => cases h
  | reservedD => cases h
  | reservedE => cases h
  | reservedF => cases h
  | flippos cw p q => cases h; rfl

/-- Every command keeps the invariant. -/
theorem exec_inv (hs : s.Inv) (h : exec i s = .next t) : t.Inv := by
  obtain ⟨hcfg, hl, hseq, -⟩ := hs
  have hframe := exec_frame h
  refine ⟨?_, exec_lfsr_ne_zero (lfsrReset_ne_zero hcfg) hl h, ?_, exec_result_wf h⟩
  · rw [hframe]; exact hcfg
  · rw [hframe]; exact hseq

/-- A peer's act keeps the invariant (R54). -/
theorem peerEvent_inv (hs : s.Inv) (a : PeerAct) (rest : List HostEvent) : (s.peerEvent a rest).Inv := by
  obtain ⟨hcfg, hl, hseq, hres⟩ := hs
  exact ⟨hcfg, peerActs_ne_zero (lfsrReset_ne_zero hcfg) [a] hl, hseq, hres⟩

/-- The reset effect keeps the invariant (R231). -/
theorem resetEffect_inv (hs : s.Inv) : s.resetEffect.Inv := by
  obtain ⟨hcfg, -, -, -⟩ := hs
  exact ⟨hcfg, lfsrReset_ne_zero hcfg, rfl, rfl⟩

variable {bits : List Bit} {blocks acc : List DataWord} {k : Nat}

/-- What the sequencer holds in BLOCK: the payload's blocks, and the first `k` of them decoded (R29). -/
theorem seq_wf_block_iff : Seq.wf ⟨.block, bits, blocks, k, acc⟩ = true ↔
    blocks = splitBits bits ∧ k ≤ blocks.length ∧ acc = blocks.take k := by
  simp [Seq.wf, and_assoc]

/-- The step from LOSSCHK keeps the invariant. -/
theorem seqStep_losschk_inv (hs : (s.withSeq ⟨.losschk, bits, blocks, k, acc⟩).Inv) :
    (seqStep (s.withSeq ⟨.losschk, bits, blocks, k, acc⟩)).Inv := by
  obtain ⟨hcfg, hl, hseq, hres⟩ := hs
  have hadv := advance_lfsr_ne_zero (lfsrReset_ne_zero hcfg) hl
  cases hloss : s.src.bit s.cfg .lossd with
  | true =>
    rw [seqStep_losschk_of_loss _ _ _ _ _ hloss]
    exact ⟨hcfg, hadv, hseq, hres⟩
  | false =>
    rw [seqStep_losschk_of_kept _ _ _ _ _ hloss]
    exact ⟨hcfg, hadv, seq_wf_block_iff.2 ⟨rfl, Nat.zero_le _, rfl⟩, hres⟩

/-- The step from BLOCK keeps the invariant: a block that decodes gives back itself, for the codec corrects or detects
what the injector can do (R131, R181). -/
theorem seqStep_block_inv (hs : (s.withSeq ⟨.block, bits, blocks, k, acc⟩).Inv) :
    (seqStep (s.withSeq ⟨.block, bits, blocks, k, acc⟩)).Inv := by
  obtain ⟨hcfg, hl, hseq, hres⟩ := hs
  obtain ⟨hblocks, hk, rfl⟩ := seq_wf_block_iff.1 hseq
  have hdrawn := injectorMask_lfsr_ne_zero (lfsrReset_ne_zero hcfg) hl
  cases hdrop : blocks.drop k with
  | nil =>
    have hend : k = blocks.length := Nat.le_antisymm hk (List.drop_eq_nil_iff.1 hdrop)
    rw [seqStep_block_nil _ _ _ hdrop]
    exact ⟨hcfg, hl, by simp [Seq.wf, hblocks, hend], hres⟩
  | cons d ds =>
    have hlt : k < blocks.length := by
      by_contra hge
      rw [List.drop_eq_nil_of_le (by omega)] at hdrop
      cases hdrop
    obtain hd | hd := processBlock_data s.cfg d s.src
    · have htake : blocks.take k ++ [d] = blocks.take (k + 1) := by
        rw [List.take_add_one, ← List.head?_drop, hdrop]
        rfl
      rw [seqStep_block_some _ _ _ hdrop hd, htake]
      exact ⟨hcfg, hdrawn, seq_wf_block_iff.2 ⟨hblocks, hlt, rfl⟩, hres⟩
    · rw [seqStep_block_none _ _ _ hdrop hd]
      exact ⟨hcfg, hdrawn, by simp [Seq.wf, ← hblocks, hlt], hres⟩

/-- Publication at FINISH keeps the invariant: the sequencer is cleared, and the record holds a status and, on OK, an
output (R188). -/
theorem seqPublish_inv (hs : s.Inv) {st : Status} (hst : st ≠ .malformed) : (seqPublish st s).Inv := by
  obtain ⟨hcfg, hl, -, -⟩ := hs
  refine ⟨hcfg, hl, rfl, ?_⟩
  cases st with
  | malformed => exact absurd rfl hst
  | _ => rfl

/-- Every step of the sequencer keeps the invariant. -/
theorem seqStep_inv (hs : s.Inv) (hbusy : s.seq.phase ≠ .idle) : (seqStep s).Inv := by
  rcases hq : s.seq with ⟨phase, bits, blocks, k, acc⟩
  have hself := (s.withSeq_eq_self _ hq).symm
  cases phase with
  | idle => rw [hq] at hbusy; exact absurd rfl hbusy
  | losschk => rw [hself] at hs ⊢; exact seqStep_losschk_inv hs
  | block => rw [hself] at hs ⊢; exact seqStep_block_inv hs
  | finish st =>
    have hst : st ≠ .malformed := by
      rintro rfl
      obtain ⟨-, -, hseq, -⟩ := hs
      rw [hq] at hseq
      cases hseq
    have hstep : seqStep s = seqPublish st s := by rw [seqStep, hq]
    rw [hstep]
    exact seqPublish_inv hs hst

end Sys2Proof.Slice0
end

section
/-! PROOFS. The statements about the invariant (R28, R29) and about the events a step takes (R51, R188, R214, R232). -/

namespace Sys2Proof.Slice0

open Sys2Proof.Machine

/-- Settles O55: by the phase, and then by everything one step can do in it. -/
theorem everyStepKeepsTheInvariant : Obligations.EveryStepKeepsTheInvariant := by
  intro s t hs ht
  by_cases hidle : s.seq.phase = .idle
  · obtain ⟨-, hstep⟩ | ⟨w, v, rest, -, hstep⟩ | ⟨rest, -, hstep⟩ | ⟨w, v, rest, -, hstep⟩ | ⟨a, rest, -, hstep⟩ :=
      step_idle_cases hidle
    · cases hstep.symm.trans ht
      exact hs
    · have haccept : (s.accept v rest).Inv := hs
      exact exec_inv haccept (hstep.symm.trans ht)
    · cases hstep.symm.trans ht
      have hreset : s.resetEffect.Inv := resetEffect_inv hs
      exact hreset
    · cases hstep.symm.trans ht
    · cases hstep.symm.trans ht
      exact peerEvent_inv hs a rest
  · obtain ⟨rest, -, hstep⟩ | ⟨a, rest, -, hstep⟩ | hstep := step_busy_cases hidle
    · cases hstep.symm.trans ht
    · cases hstep.symm.trans ht
      exact peerEvent_inv hs a rest
    · obtain ⟨-, ⟨⟩⟩ := withDraws_eq_next (hstep.symm.trans ht)
      exact seqStep_inv hs hidle

/-- Settles O5: by everything one step can do in IDLE; the frame of a command has the sequencer and the queue. -/
theorem eventsAreHandledOneAtATime : Obligations.EventsAreHandledOneAtATime := by
  intro s t hidle ht
  obtain ⟨hhost, hstep⟩ | ⟨w, v, rest, hhost, hstep⟩ | ⟨rest, hhost, hstep⟩ | ⟨w, v, rest, -, hstep⟩ |
      ⟨a, rest, hhost, hstep⟩ := step_idle_cases hidle
  · cases hstep.symm.trans ht
    rw [hhost]
    exact ⟨hidle, rfl⟩
  · rw [exec_frame (hstep.symm.trans ht), hhost]
    exact ⟨hidle, rfl⟩
  · cases hstep.symm.trans ht
    rw [hhost]
    exact ⟨rfl, rfl⟩
  · cases hstep.symm.trans ht
  · cases hstep.symm.trans ht
    rw [hhost]
    exact ⟨hidle, rfl⟩

/-- Settles O54: the defaults are legal whatever the free values, and every other field is at its reset value. -/
theorem invariantHoldsAtReset : Obligations.InvariantHoldsAtReset := by
  refine ⟨?_, by decide, rfl, rfl⟩
  simp [State.reset, Config.wf, Config.default, Prob.wf]

/-- Settles O2: in IDLE the event `resetDuring` is refused, and out of IDLE a reset. -/
theorem resetDuringCommandIsRefused : Obligations.ResetDuringCommandIsRefused := by
  refine ⟨fun s w v rest hidle hhost => ?_, fun s rest hbusy hhost => ?_⟩
  · rw [step, nextEvent, hidle]
    simp only [idleEvent, hhost]
  · rw [step, nextEvent_busy hbusy]
    simp only [busyEvent, hhost]

/-- Settles O3: the state the command runs in is `State.accept`. -/
theorem stepRunsTheIssuedCommand : Obligations.StepRunsTheIssuedCommand :=
  fun _ _ _ _ hidle hhost => step_command hidle hhost

/-- In every phase a pending act of a peer is the step's event (R54). -/
theorem step_peer {s : State} {a : PeerAct} {rest : List HostEvent} (hhost : s.host = .peer a :: rest) :
    step s = .next (s.peerEvent a rest) := by
  by_cases hidle : s.seq.phase = .idle
  · rw [step, nextEvent, hidle]
    simp only [idleEvent, hhost]
  · rw [step, nextEvent_busy hidle]
    simp only [busyEvent, hhost]

/-- Settles O4: the act is the step's event, and `peerAct` has one equation for each act and mode. -/
theorem otherEventsTouchOnlyTheSource : Obligations.OtherEventsTouchOnlyTheSource := by
  refine ⟨fun s hidle hhost => ?_, fun s a rest hhost => ⟨_, step_peer hhost, fun hone => ?_, fun hmany => ?_⟩⟩
  · rw [step, nextEvent, hidle]
    simp only [idleEvent, hhost]
  · rw [peerActs, if_pos hone]
  · rw [peerActs, if_neg (Nat.not_le.2 hmany), List.foldl_cons, List.foldl_nil]
    refine ⟨?_, ?_, ?_, ?_, ?_⟩
    · rintro rfl hmode
      simp only [peerAct, hmode, lfsrDraw]
    · rintro rfl hmode
      simp only [peerAct, hmode]
    · rintro x rfl hx
      rw [peerAct, if_neg hx]
    · rintro rfl
      rw [peerAct, if_pos rfl]
    · rintro rfl
      rfl

/-- Settles O6: out of IDLE neither an empty queue nor a command is an event of its own. -/
theorem busyStepIsASequencerStep : Obligations.BusyStepIsASequencerStep := by
  intro s hbusy hdraws hhost
  rw [step, nextEvent_busy hbusy]
  obtain hhost | ⟨w, v, rest, hhost⟩ := hhost
  · simp only [busyEvent, hhost, withDraws_eq hdraws]
  · simp only [busyEvent, hhost, withDraws_eq hdraws]

/-- Settles O7: the step publishes, for it issues a command. -/
theorem runShowsEachResultInOrder : Obligations.RunShowsEachResultInOrder := by
  intro s t n w v rest rs l hidle hhost hstep hrun
  have hpub : s.publishes = true := by simp only [State.publishes, hidle, hhost]
  have hobserve (m : Nat) : observe (m + 1) s = (observe m t).map fun o => (t.result :: o.1, o.2) := by
    simp only [observe, hstep, hpub, if_true]
  refine ⟨by rw [hobserve, hrun]; rfl, hobserve 0⟩

end Sys2Proof.Slice0
end

section
/-! PROOFS. The round trips of the converter and the Segmenter (R102, R106). -/

namespace Sys2Proof.Slice0

open Sys2Proof.Machine

variable {s : State}

theorem yields_tobits {t : List Symbol} (hl : t.length ≤ s.cfg.maxChars) :
    Yields .tobits s (.text t) (.bits (textToBits t)) := ⟨_, exec_tobits rfl hl, rfl, rfl⟩

theorem yields_totext {b : List Bit} (hl : b.length ≤ s.cfg.maxChars) :
    Yields .totext s (.bits b) (.text (bitsToText b)) := ⟨_, exec_totext rfl hl, rfl, rfl⟩

theorem yields_split {b : List Bit} (hl : b.length ≤ s.cfg.maxChars) :
    Yields .split s (.bits b) (.blocks (splitBits b)) := ⟨_, exec_split rfl hl, rfl, rfl⟩

theorem yields_reassemble {d : List DataWord} (hl : d.length ≤ s.cfg.maxChars) :
    Yields .reassemble s (.blocks d) (.bits (joinBlocks d)) := ⟨_, exec_reassemble rfl hl, rfl, rfl⟩

/-- Bits written as text read back (R102). -/
theorem textToBits_bitsToText (b : List Bit) : textToBits (bitsToText b) = b := by
  simp [textToBits, bitsToText, Function.comp_def]

/-- A text read as bits is written back with every character but `'1'` as `'0'` (R102). -/
theorem bitsToText_textToBits (t : List Symbol) : bitsToText (textToBits t) = degraded t := by
  rw [bitsToText, textToBits, List.map_map]
  exact List.map_congr_left fun c _ => bitToSymbol_symbolToBit c

/-- Degrading keeps exactly the texts of `'1'` and `'0'` (R102). -/
theorem degraded_eq_self_iff (t : List Symbol) : degraded t = t ↔ ∀ c ∈ t, c = 0x31#32 ∨ c = 0x30#32 := by
  have hchar (c : Symbol) : (if c = 0x31 then 0x31 else 0x30) = c ↔ c = 0x31#32 ∨ c = 0x30#32 := by
    split
    next h => simp [h]
    next h => exact ⟨fun h0 => .inr h0.symm, fun h01 => (h01.resolve_left h).symm⟩
  conv_lhs => rw [degraded, ← List.map_id t, List.map_map, List.map_eq_map_iff]
  exact forall₂_congr fun c _ => hchar c

/-- Settles O15: both ways through the bits or the text between. -/
theorem converterRoundTrips : Obligations.ConverterRoundTrips := by
  refine fun s => ⟨fun b hb => ⟨bitsToText b, yields_totext hb, ?_⟩, fun t ht => ⟨textToBits t, yields_tobits ht, ?_,
    degraded_eq_self_iff t⟩⟩
  · have hback := yields_tobits (s := s) (t := bitsToText b) (by rwa [length_bitsToText])
    rwa [textToBits_bitsToText] at hback
  · have hback := yields_totext (s := s) (b := textToBits t) (by rwa [length_textToBits])
    rwa [bitsToText_textToBits] at hback

/-- The Segmenter's padding of `n` bits: zeros up to whole blocks (R43, R103). -/
def padding (n : Nat) : List Bit := List.replicate ((11 - n % 11) % 11) false

/-- SPLIT and REASSEMBLE pad to whole blocks (R106). -/
theorem joinBlocks_splitBits (bits : List Bit) : joinBlocks (splitBits bits) = bits ++ padding bits.length := by
  apply List.ext_getElem?
  intro j
  rw [getElem?_joinBlocks, getElem?_splitBits, List.getElem?_append, padding, List.getElem?_replicate]
  have hbit : (blockOf bits (j / 11)).getLsbD (10 - j % 11) = bits.getD j false := by
    rw [getLsbD_blockOf _ _ _ (by omega)]
    congr 1
    omega
  by_cases hin : j / 11 < blockCount bits.length
  · rw [if_pos hin, Option.map_some, hbit, List.getD_eq_getElem?_getD]
    unfold blockCount at hin
    by_cases hj : j < bits.length
    · rw [if_pos hj, List.getElem?_eq_getElem hj]
      rfl
    · rw [if_neg hj, if_pos (by omega), List.getElem?_eq_none (by omega)]
      rfl
  · rw [if_neg hin]
    unfold blockCount at hin
    rw [if_neg (by omega), if_neg (by omega)]
    rfl

/-- REASSEMBLE and SPLIT give the blocks back (R106). -/
theorem splitBits_joinBlocks (blocks : List DataWord) : splitBits (joinBlocks blocks) = blocks := by
  have hcount : blockCount (joinBlocks blocks).length = blocks.length := by
    rw [length_joinBlocks, blockCount]
    omega
  apply List.ext_getElem?
  intro b
  rw [getElem?_splitBits, hcount]
  by_cases hb : b < blocks.length
  · rw [if_pos hb, List.getElem?_eq_getElem hb, Option.some_inj]
    apply BitVec.eq_of_getLsbD_eq
    intro i hi
    have hblock : (11 * b + (10 - i)) / 11 = b := by omega
    have hpos : 10 - (11 * b + (10 - i)) % 11 = i := by omega
    rw [getLsbD_blockOf _ _ _ hi, List.getD_eq_getElem?_getD, getElem?_joinBlocks, hblock, hpos,
      List.getElem?_eq_getElem hb]
    rfl
  · rw [if_neg hb, List.getElem?_eq_none (by omega)]

/-- There is no padding exactly where the bits fill whole blocks (R106). -/
theorem padding_eq_nil_iff (n : Nat) : padding n = [] ↔ 11 ∣ n := by
  rw [padding, List.replicate_eq_nil_iff]
  omega

/-- Settles O18: SPLIT pads, and REASSEMBLE loses nothing. -/
theorem segmenterRoundTrips : Obligations.SegmenterRoundTrips := by
  refine fun s => ⟨fun bits hbits => ?_, fun blocks hblocks => ?_⟩
  · have hcount : (splitBits bits).length ≤ s.cfg.maxChars := by
      rw [length_splitBits]
      exact (blockCount_le _).trans hbits
    refine ⟨_, _, yields_split hbits, yields_reassemble hcount, joinBlocks_splitBits bits, ?_, ?_⟩
    · rw [joinBlocks_splitBits, List.take_left]
    · rw [joinBlocks_splitBits, List.append_right_eq_self, padding_eq_nil_iff]
  · have hback := yields_split (s := s) (b := joinBlocks blocks) (by rwa [length_joinBlocks])
    rw [splitBits_joinBlocks] at hback
    exact ⟨_, yields_reassemble (by omega), hback⟩

end Sys2Proof.Slice0
end

section
/-! SUPPORT. Words by the bits they hold: the mask of one position, and the words with at most two bits set (R61). -/

namespace Sys2Proof.Slice0

open Sys2Proof.Machine

/-- The mask of a position holds that position alone (R61, R81). -/
theorem bitAt_onehot {p j : Nat} (hp : 1 ≤ p ∧ p ≤ 16) (hj : 1 ≤ j ∧ j ≤ 16) : bitAt (onehot p) j = decide (j = p) := by
  rw [bitAt, getLsbD_onehot _ _ (by omega)]
  exact decide_eq_decide.2 (by omega)

/-- A word is the word of its bits by position (R61). -/
theorem eq_of_bitAt_eq {x y : Word} (h : ∀ p, 1 ≤ p → p ≤ 16 → bitAt x p = bitAt y p) : x = y := by
  apply BitVec.eq_of_getLsbD_eq
  intro i hi
  have hp := h (16 - i) (by omega) (by omega)
  rwa [bitAt, bitAt, show 16 - (16 - i) = i by omega] at hp

theorem length_maskPositions (x : Word) : (maskPositions x).length = weight x := List.length_map _

theorem mem_maskPositions {x : Word} {p : Nat} (hp : 1 ≤ p ∧ p ≤ 16) : p ∈ maskPositions x ↔ bitAt x p = true := by
  simp only [maskPositions, bitAt, List.mem_map, List.mem_filter, List.mem_range]
  constructor
  · rintro ⟨j, ⟨hj, hbit⟩, rfl⟩
    rwa [show 16 - (16 - j) = j by omega]
  · exact fun hbit => ⟨16 - p, ⟨by omega, hbit⟩, by omega⟩

theorem maskPositions_range {x : Word} {p : Nat} (h : p ∈ maskPositions x) : 1 ≤ p ∧ p ≤ 16 := by
  simp only [maskPositions, List.mem_map, List.mem_filter, List.mem_range] at h
  obtain ⟨j, ⟨hj, -⟩, rfl⟩ := h
  omega

theorem maskPositions_nodup (x : Word) : (maskPositions x).Nodup := by
  refine (List.nodup_range.filter _).map_on fun i hi j hj h => ?_
  have hi := List.mem_range.1 (List.mem_filter.1 hi).1
  have hj := List.mem_range.1 (List.mem_filter.1 hj).1
  omega

/-- The words with at most one bit set. -/
theorem weight_le_one_cases {x : Word} (h : weight x ≤ 1) : x = 0 ∨ ∃ p, 1 ≤ p ∧ p ≤ 16 ∧ x = onehot p := by
  have hbit {p : Nat} (hp : 1 ≤ p ∧ p ≤ 16) := mem_maskPositions (x := x) hp
  rw [← length_maskPositions] at h
  rcases hps : maskPositions x with _ | ⟨p, _ | ⟨q, ps⟩⟩
  · refine .inl (eq_of_bitAt_eq fun j h1 h16 => ?_)
    have hj := hbit ⟨h1, h16⟩
    rw [bitAt_zero]
    simpa [hps] using hj
  · have hp : 1 ≤ p ∧ p ≤ 16 := maskPositions_range (x := x) (by simp [hps])
    refine .inr ⟨p, hp.1, hp.2, eq_of_bitAt_eq fun j h1 h16 => ?_⟩
    have hj := hbit ⟨h1, h16⟩
    rw [bitAt_onehot hp ⟨h1, h16⟩, Bool.eq_iff_iff, ← hj, hps]
    simp
  · rw [hps] at h
    simp at h

/-- The words with exactly two bits set. -/
theorem weight_eq_two_cases {x : Word} (h : weight x = 2) :
    ∃ p q, (1 ≤ p ∧ p ≤ 16) ∧ (1 ≤ q ∧ q ≤ 16) ∧ p ≠ q ∧ x = onehot p ^^^ onehot q := by
  rw [← length_maskPositions, List.length_eq_two] at h
  obtain ⟨p, q, hps⟩ := h
  have hp : 1 ≤ p ∧ p ≤ 16 := maskPositions_range (x := x) (by simp [hps])
  have hq : 1 ≤ q ∧ q ≤ 16 := maskPositions_range (x := x) (by simp [hps])
  have hne : p ≠ q := by
    have hnodup := maskPositions_nodup x
    rw [hps] at hnodup
    simpa using hnodup
  refine ⟨p, q, hp, hq, hne, eq_of_bitAt_eq fun j h1 h16 => ?_⟩
  rw [bitAt_xor, bitAt_onehot hp ⟨h1, h16⟩, bitAt_onehot hq ⟨h1, h16⟩, Bool.eq_iff_iff,
    ← mem_maskPositions ⟨h1, h16⟩, hps]
  by_cases hjp : j = p
  · simp [hjp, hne]
  · simp [hjp]

/-- What holds of the 16 positions, counted from 0 and shifted, holds of every position (R10). -/
theorem forall_positions {P : Nat → Prop} (h : ∀ p : Fin 16, P (p.val + 1)) {p : Nat} (hp : 1 ≤ p ∧ p ≤ 16) : P p := by
  have hshift := h ⟨p - 1, by omega⟩
  rwa [show p - 1 + 1 = p by omega] at hshift

theorem weight_onehot {p : Nat} (hp : 1 ≤ p ∧ p ≤ 16) : weight (onehot p) = 1 :=
  forall_positions (P := fun p => weight (onehot p) = 1) (by decide) hp

theorem weight_onehot_xor {p q : Nat} (hp : 1 ≤ p ∧ p ≤ 16) (hq : 1 ≤ q ∧ q ≤ 16) (hne : p ≠ q) :
    weight (onehot p ^^^ onehot q) = 2 :=
  forall_positions (P := fun p => ∀ q, 1 ≤ q ∧ q ≤ 16 → p ≠ q → weight (onehot p ^^^ onehot q) = 2)
    (fun p _ => forall_positions (P := fun q => p.val + 1 ≠ q → weight (onehot (p.val + 1) ^^^ onehot q) = 2)
      (by revert p; decide +kernel)) hp q hq hne

/-- Three positions are no pattern of at most one. -/
theorem one_lt_weight_triple {p q r : Nat} (hp : 1 ≤ p ∧ p ≤ 16) (hq : 1 ≤ q ∧ q ≤ 16) (hr : 1 ≤ r ∧ r ≤ 16)
    (hpq : p ≠ q) (hpr : p ≠ r) (hqr : q ≠ r) : 1 < weight (onehot p ^^^ onehot q ^^^ onehot r) := by
  have hbit {j : Nat} (hj : 1 ≤ j ∧ j ≤ 16) : bitAt (onehot p ^^^ onehot q ^^^ onehot r) j =
      ((decide (j = p) ^^ decide (j = q)) ^^ decide (j = r)) := by
    rw [bitAt_xor, bitAt_xor, bitAt_onehot hp hj, bitAt_onehot hq hj, bitAt_onehot hr hj]
  have hbp : bitAt (onehot p ^^^ onehot q ^^^ onehot r) p = true := by rw [hbit hp]; simp [hpq, hpr]
  have hbq : bitAt (onehot p ^^^ onehot q ^^^ onehot r) q = true := by rw [hbit hq]; simp [hpq.symm, hqr]
  by_contra hle
  obtain h | ⟨t, h1, h16, h⟩ := weight_le_one_cases (Nat.not_lt.1 hle)
  · rw [h, bitAt_zero] at hbp
    cases hbp
  · rw [h, bitAt_onehot ⟨h1, h16⟩ hp, decide_eq_true_eq] at hbp
    rw [h, bitAt_onehot ⟨h1, h16⟩ hq, decide_eq_true_eq] at hbq
    exact hpq (hbp.trans hbq.symm)

/-- Whether the weight is odd is the overall parity (R66). -/
theorem overallParity_eq_odd_weight (x : Word) : overallParity x = decide (weight x % 2 = 1) := by
  have hfold (l : List Nat) : l.foldl (fun b j => b ^^ x.getLsbD j) false =
      decide ((l.filter fun j => x.getLsbD j).length % 2 = 1) := by
    induction l with
    | nil => rfl
    | cons j l ih =>
      rw [List.foldl_cons, foldl_xor_start, ih]
      cases hj : x.getLsbD j with
      | false => rw [List.filter_cons_of_neg (by simp [hj])]; simp
      | true =>
        rw [List.filter_cons_of_pos (by simp [hj]), List.length_cons]
        rcases Nat.mod_two_eq_zero_or_one (l.filter fun j => x.getLsbD j).length with h | h <;>
          simp [Nat.add_mod, h]
  rw [← parity_eq_overallParity]
  exact hfold _

end Sys2Proof.Slice0
end

section
/-! SUPPORT. The code and its decoder: a word that passes all checks is the codeword of its data, and what the decoder
does with an error pattern (R122, R125, R128, R131). -/

namespace Sys2Proof.Slice0

open Sys2Proof.Machine

/-- Where all bits at the positions are 0, so is their parity. -/
theorem xorAt_eq_false {x : Word} {ps : List Nat} (h : ∀ p ∈ ps, bitAt x p = false) : xorAt x ps = false := by
  induction ps with
  | nil => rfl
  | cons p ps ih =>
    rw [List.forall_mem_cons] at h
    rw [xorAt_cons, h.1, ih h.2, Bool.xor_self]

/-- Data bits 0 are bits 0 at the data positions (R63, R129). -/
theorem bitAt_eq_false_of_extract {x : Word} (hext : extract x = 0#11) {p : Nat} (hp : p ∈ dataPositions) :
    bitAt x p = false := by
  obtain ⟨n, hn, rfl⟩ := List.getElem_of_mem hp
  have hlen : n < 11 := hn
  have hbit := getLsbD_extract x (10 - n) (by omega)
  rw [hext, BitVec.getLsbD_zero, show 10 - (10 - n) = n by omega, List.getD_eq_getElem _ _ hn] at hbit
  exact hbit.symm

/-- A word that passes all checks and whose data bits are 0 is 0: each parity bit is a parity of zeros. -/
theorem eq_zero_of_checks {x : Word} (hsyn : syndromeOf x = 0) (hovp : overallParity x = false)
    (hext : extract x = 0#11) : x = 0 := by
  have hdata {p : Nat} (hp : p ∈ dataPositions) := bitAt_eq_false_of_extract hext hp
  have hcheck {w : Nat} {ps : List Nat} (hps : ps ⊆ dataPositions) : check x w ps = bitAt x w := by
    rw [check, xorAt_eq_false fun p hp => hdata (hps hp), Bool.xor_false]
  have hbits : ∀ a b c d : Bool, BitVec.ofBool a ++ BitVec.ofBool b ++ BitVec.ofBool c ++ BitVec.ofBool d = 0#4 →
      a = false ∧ b = false ∧ c = false ∧ d = false := by decide
  obtain ⟨h8, h4, h2, h1⟩ := hbits _ _ _ _ hsyn
  rw [hcheck (by decide)] at h8 h4 h2 h1
  have hlow : ∀ p ∈ positions1to15, bitAt x p = false := by
    intro p hp
    have hkinds : ∀ p ∈ positions1to15, p ∈ dataPositions ∨ p = 1 ∨ p = 2 ∨ p = 4 ∨ p = 8 := by decide
    obtain hp | rfl | rfl | rfl | rfl := hkinds p hp
    · exact hdata hp
    · exact h1
    · exact h2
    · exact h4
    · exact h8
  have h16 : bitAt x 16 = false := by
    have hperm : (positions1to15 ++ [16]).Perm (16 :: positions1to15) := by decide
    rw [overallParity, xorAt_eq_of_perm x hperm, xorAt_cons, xorAt_eq_false hlow, Bool.xor_false] at hovp
    exact hovp
  refine eq_of_bitAt_eq fun p hp1 hp16 => ?_
  rw [bitAt_zero]
  by_cases hp : p = 16
  · rw [hp, h16]
  · have hmem : p ∈ positions1to15 := by
      have hall : ∀ p < 16, 1 ≤ p → p ∈ positions1to15 := by decide
      exact hall p (by omega) hp1
    exact hlow p hmem

/-- A word that passes all checks is the codeword of its data bits (R120, R122). -/
theorem encodeBlock_extract {c : Word} (hsyn : syndromeOf c = 0) (hovp : overallParity c = false) :
    encodeBlock (extract c) = c := by
  obtain ⟨hs, ho, he⟩ := encodeBlock_facts (extract c)
  refine BitVec.xor_eq_zero_iff.1 (eq_zero_of_checks ?_ ?_ ?_)
  · rw [syndromeOf_xor, hs, hsyn]; rfl
  · rw [overallParity_xor, ho, hovp]; rfl
  · rw [extract_xor, he, BitVec.xor_self]

variable {p q : Nat}

theorem overallParity_onehot (hp : 1 ≤ p ∧ p ≤ 16) : overallParity (onehot p) = true :=
  forall_positions (P := fun p => overallParity (onehot p) = true) (by decide) hp

/-- The syndrome of a single position is the position, and that of position 16 is 0 (R65, R123). -/
theorem syndromeOf_onehot (hp : 1 ≤ p ∧ p ≤ 16) : syndromeOf (onehot p) = BitVec.ofNat 4 p :=
  forall_positions (P := fun p => syndromeOf (onehot p) = BitVec.ofNat 4 p) (by decide) hp

/-- The row of the classification table for a single position (R125). -/
theorem verdictOf_onehot (hp : 1 ≤ p ∧ p ≤ 16) :
    verdictOf (onehot p) = if p = 16 then .singleExtra else .singleCorrected :=
  forall_positions (P := fun p => verdictOf (onehot p) = if p = 16 then .singleExtra else .singleCorrected)
    (by decide +kernel) hp

/-- The mapper names a single position, 16 included (R69, R126). -/
theorem errorPosition_onehot (hp : 1 ≤ p ∧ p ≤ 16) :
    errorPosition (verdictOf (onehot p)) (syndromeOf (onehot p)) = BitVec.ofNat 5 p :=
  forall_positions (P := fun p => errorPosition (verdictOf (onehot p)) (syndromeOf (onehot p)) = BitVec.ofNat 5 p)
    (by decide +kernel) hp

/-- A single flip does not reach the data. -/
theorem decodeBlock_onehot (hp : 1 ≤ p ∧ p ≤ 16) : decodeBlock (onehot p) = some 0 :=
  forall_positions (P := fun p => decodeBlock (onehot p) = some 0) (fun p => (decodeBlock_patterns.2 p p).1) hp

/-- A double flip is detected. -/
theorem decodeBlock_onehot_xor (hp : 1 ≤ p ∧ p ≤ 16) (hq : 1 ≤ q ∧ q ≤ 16) (hne : p ≠ q) :
    decodeBlock (onehot p ^^^ onehot q) = none :=
  decodeBlock_eq_none (by
    rw [syndromeOf_xor, overallParity_xor, overallParity_onehot hp, overallParity_onehot hq, syndromeOf_onehot hp,
      syndromeOf_onehot hq]
    refine ⟨fun h => hne ?_, rfl⟩
    have heq := congrArg BitVec.toNat (BitVec.xor_eq_zero_iff.1 h)
    simp only [BitVec.toNat_ofNat] at heq
    omega)

/-- A word one flip from passing all checks is at distance 1 from the codeword of the data it then holds. -/
theorem distance_flipped {cw : Word} (hp : 1 ≤ p ∧ p ≤ 16) (hsyn : syndromeOf cw = BitVec.ofNat 4 p)
    (hovp : overallParity cw = true) : distance cw (encodeBlock (extract (cw ^^^ onehot p))) = 1 := by
  have hcode : encodeBlock (extract (cw ^^^ onehot p)) = cw ^^^ onehot p := by
    refine encodeBlock_extract ?_ ?_
    · rw [syndromeOf_xor, hsyn, syndromeOf_onehot hp, BitVec.xor_self]; rfl
    · rw [overallParity_xor, hovp, overallParity_onehot hp]; rfl
  rw [hcode, distance, ← BitVec.xor_assoc, BitVec.xor_self, BitVec.zero_xor, weight_onehot hp]

/-- The decoder's data are those of a codeword at distance at most 1 (R128). -/
theorem distance_le_one_of_decodeBlock {cw : Word} {d : DataWord} (h : decodeBlock cw = some d) :
    distance cw (encodeBlock d) ≤ 1 := by
  have hok : ¬ (syndromeOf cw ≠ 0 ∧ overallParity cw = false) := fun hded => by
    cases (decodeBlock_eq_none hded).symm.trans h
  cases (decodeBlock_eq_some hok).symm.trans h
  by_cases hsyn : syndromeOf cw = 0
  · rw [if_pos hsyn]
    cases hovp : overallParity cw with
    | false =>
      rw [encodeBlock_extract hsyn hovp, distance, BitVec.xor_self]
      decide
    | true =>
      have hflip := distance_flipped (p := 16) (by decide) (hsyn.trans rfl) hovp
      have hkeep : extract (cw ^^^ onehot 16) = extract cw := by
        rw [extract_xor, show extract (onehot 16) = 0#11 by decide, BitVec.xor_zero]
      rw [hkeep] at hflip
      exact hflip.le
  · have hovp : overallParity cw = true := Bool.eq_true_of_not_eq_false fun hovp => hok ⟨hsyn, hovp⟩
    have hpos : (syndromeOf cw).toNat ≠ 0 := BitVec.toNat_ne.1 hsyn
    have hlt := (syndromeOf cw).isLt
    rw [if_neg hsyn]
    exact (distance_flipped (by omega) (by simp) hovp).le

/-- Where the decoder gives no data, it was a double error (R128). -/
theorem verdictOf_of_decodeBlock_none {cw : Word} (h : decodeBlock cw = none) : verdictOf cw = .doubleDetected := by
  cases hv : verdictOf cw with
  | doubleDetected => rfl
  | _ => simp [decodeBlock, hv] at h

variable {s : State} {d : DataWord} {m : Word}

/-- The diagnosis of a codeword xor an error pattern is that of the pattern. -/
theorem diagnosis_encodeBlock_xor (d : DataWord) (m : Word) : diagnosis (encodeBlock d ^^^ m) = diagnosis m := by
  obtain ⟨hs, ho, -⟩ := encodeBlock_facts d
  have hsyn : syndromeOf (encodeBlock d ^^^ m) = syndromeOf m := by rw [syndromeOf_xor, hs]; exact BitVec.zero_xor
  have hovp : overallParity (encodeBlock d ^^^ m) = overallParity m := by rw [overallParity_xor, ho, Bool.false_xor]
  rw [diagnosis, diagnosis, verdictOf_encodeBlock_xor, hsyn, hovp]

/-- DECODE of a codeword xor a pattern that the decoder takes for one of the data `y`. -/
theorem exec_decode_pattern_some {y : DataWord} (h : decodeBlock m = some y) :
    exec (.decode (encodeBlock d ^^^ m)) s =
      .next (s.completeOk { diagnosis m with res := some (dataToWord (d ^^^ y)) }) := by
  have hd : decodeBlock (encodeBlock d ^^^ m) = some (d ^^^ y) := by rw [decodeBlock_encodeBlock_xor, h]; rfl
  rw [exec_decode_some hd, diagnosis_encodeBlock_xor]

/-- DECODE of a codeword xor a pattern that the decoder detects. -/
theorem exec_decode_pattern_none (h : decodeBlock m = none) :
    exec (.decode (encodeBlock d ^^^ m)) s = .next (s.raise .doubleErrorDetected (diagnosis m)) := by
  have hd : decodeBlock (encodeBlock d ^^^ m) = none := by rw [decodeBlock_encodeBlock_xor, h]; rfl
  rw [exec_decode_none hd, diagnosis_encodeBlock_xor]

/-- DECODE of a codeword xor a pattern that does not reach the data gives the data. -/
theorem exec_decode_pattern_zero (h : decodeBlock m = some 0) :
    exec (.decode (encodeBlock d ^^^ m)) s =
      .next (s.completeOk { diagnosis m with res := some (d.zeroExtend 16) }) := by
  rw [exec_decode_pattern_some h, show d ^^^ 0 = d from BitVec.xor_zero]
  rfl

end Sys2Proof.Slice0
end

section
/-! PROOFS. The statements about the code: its distance, its decoder on error patterns, and its closed form (R121, R122,
R128, R130, R131). -/

namespace Sys2Proof.Slice0

open Sys2Proof.Machine

/-- Two data words' codewords differ in an even number of positions, and not in two: the decoder would detect the
difference as a double error, and it is none. -/
theorem four_le_distance {d d' : DataWord} (hne : d ≠ d') : 4 ≤ distance (encodeBlock d) (encodeBlock d') := by
  obtain ⟨-, ho, he⟩ := encodeBlock_facts d
  obtain ⟨-, ho', he'⟩ := encodeBlock_facts d'
  have hodd := overallParity_eq_odd_weight (encodeBlock d ^^^ encodeBlock d')
  rw [overallParity_xor, ho, ho', Bool.false_xor, eq_comm, decide_eq_false_iff_not] at hodd
  by_contra hlt
  rw [distance] at hlt
  have hcases : weight (encodeBlock d ^^^ encodeBlock d') = 0 ∨ weight (encodeBlock d ^^^ encodeBlock d') = 2 := by
    omega
  obtain h0 | h2 := hcases
  · obtain h | ⟨p, h1, h16, h⟩ := weight_le_one_cases (x := encodeBlock d ^^^ encodeBlock d') (by omega)
    · rw [← he, ← he', BitVec.xor_eq_zero_iff.1 h] at hne
      exact hne rfl
    · rw [h, weight_onehot ⟨h1, h16⟩] at h0
      cases h0
  · obtain ⟨p, q, hp, hq, hpq, h⟩ := weight_eq_two_cases h2
    have hdec := decodeBlock_encodeBlock_xor d (encodeBlock d ^^^ encodeBlock d')
    have hdec' := decodeBlock_encodeBlock_xor d' 0
    rw [h, decodeBlock_onehot_xor hp hq hpq, ← h, ← BitVec.xor_assoc, BitVec.xor_self, BitVec.zero_xor] at hdec
    rw [show encodeBlock d' ^^^ 0 = encodeBlock d' from BitVec.xor_zero, hdec, decodeBlock_patterns.1] at hdec'
    cases hdec'

/-- Settles O21: codewords pass all checks, their distance is at least 4, and those of 0 and 0x040 are at distance 4. -/
theorem codeHasMinimumDistanceFour : Obligations.CodeHasMinimumDistanceFour := by
  refine ⟨fun d d' => ?_, 0, 0x040, by decide +kernel⟩
  obtain ⟨hs, ho, -⟩ := encodeBlock_facts d
  exact ⟨by rw [parity_eq_overallParity, ho], by rw [busSyndrome_eq, hs], four_le_distance⟩

/-- Settles O24: the tables are the codes' own equations, and the verdict's two bits are read off the four rows of the
classification table. -/
theorem verdictAndStatusCodes : Obligations.VerdictAndStatusCodes := by
  refine ⟨⟨rfl, rfl, rfl, rfl⟩, ⟨rfl, rfl, rfl, rfl⟩, fun s cw => ⟨_, _, exec_syndrome cw, rfl, ?_⟩⟩
  rw [busSyndrome_eq, parity_eq_overallParity, verdictOf, classify]
  by_cases hsyn : syndromeOf cw = 0
  · rw [if_pos hsyn, decide_eq_false (not_not.2 hsyn)]
    cases overallParity cw <;> decide
  · rw [if_neg hsyn, decide_eq_true hsyn]
    cases overallParity cw <;> decide

/-- DECODE after one flip: the data, with the position and its verdict (R131). -/
theorem exec_decode_single (s : State) (d : DataWord) {p : Nat} (hp : 1 ≤ p ∧ p ≤ 16) :
    ∃ u, exec (.decode (encodeBlock d ^^^ onehot p)) s = .next u ∧ u.result.status = some .ok ∧
      u.result.verdict = some (if p = 16 then .singleExtra else .singleCorrected) ∧
      u.result.errpos = some (BitVec.ofNat 5 p) ∧ u.result.res = some (d.zeroExtend 16) :=
  ⟨_, exec_decode_pattern_zero (decodeBlock_onehot hp), rfl, congrArg some (verdictOf_onehot hp),
    congrArg some (errorPosition_onehot hp), rfl⟩

/-- Settles O25: no flip and one flip are patterns that do not reach the data. -/
theorem singleErrorsAreCorrected : Obligations.SingleErrorsAreCorrected := by
  intro s d
  refine ⟨_, encodeBlock d, exec_encode d, rfl, ?_, fun p h1 h15 => ?_, exec_decode_single _ d (by decide)⟩
  · have hnone := exec_decode_pattern_zero (s := s.completeOk { res := some (encodeBlock d) }) (d := d)
      decodeBlock_patterns.1
    rw [show encodeBlock d ^^^ 0 = encodeBlock d from BitVec.xor_zero] at hnone
    exact ⟨_, hnone, rfl, congrArg some (by decide : verdictOf 0 = .noError), rfl⟩
  · have hsingle := exec_decode_single (s.completeOk { res := some (encodeBlock d) }) d (p := p) (by omega)
    rwa [if_neg (by omega)] at hsingle

/-- Settles O26: two flips are a pattern that the decoder detects. -/
theorem doubleErrorsAreDetected : Obligations.DoubleErrorsAreDetected := by
  intro s d p q hp1 hp16 hq1 hq16 hne
  have hnone := decodeBlock_onehot_xor ⟨hp1, hp16⟩ ⟨hq1, hq16⟩ hne
  have hrun := exec_decode_pattern_none (s := s.completeOk { res := some (encodeBlock d) }) (d := d) hnone
  rw [← BitVec.xor_assoc] at hrun
  exact ⟨_, encodeBlock d, _, exec_encode d, rfl, hrun, rfl, congrArg some (verdictOf_of_decodeBlock_none hnone), rfl⟩

/-- Odd parity is a single error in the classification table (R125). -/
theorem verdictOf_of_odd {cw : Word} (h : overallParity cw = true) :
    verdictOf cw = .singleCorrected ∨ verdictOf cw = .singleExtra := by
  rw [verdictOf, h, classify]
  by_cases hsyn : syndromeOf cw = 0
  · rw [if_pos hsyn]; exact .inr rfl
  · rw [if_neg hsyn]; exact .inl rfl

/-- Settles O27: three flips have odd parity, so the decoder gives data; they are not the original, whose codeword is
three flips away. -/
theorem tripleErrorsGiveWrongData : Obligations.TripleErrorsGiveWrongData := by
  intro s d p q r h1 hpq hqr h16
  have hp : 1 ≤ p ∧ p ≤ 16 := by omega
  have hq : 1 ≤ q ∧ q ≤ 16 := by omega
  have hr : 1 ≤ r ∧ r ≤ 16 := by omega
  have hweight := one_lt_weight_triple hp hq hr (by omega) (by omega) (by omega)
  have hovp : overallParity (onehot p ^^^ onehot q ^^^ onehot r) = true := by
    rw [overallParity_xor, overallParity_xor, overallParity_onehot hp, overallParity_onehot hq, overallParity_onehot hr]
    rfl
  rw [BitVec.xor_assoc, BitVec.xor_assoc, ← BitVec.xor_assoc (onehot p)]
  generalize onehot p ^^^ onehot q ^^^ onehot r = m at hweight hovp ⊢
  have hdec := decodeBlock_eq_some (cw := m) (by rw [hovp]; simp)
  refine ⟨_, _, exec_decode_pattern_some hdec, rfl, ?_, rfl, fun hsame => ?_⟩
  · exact (verdictOf_of_odd hovp).imp (congrArg some) (congrArg some)
  · have hback := decodeBlock_encodeBlock_xor d m
    have hd := congrArg (·.extractLsb' 0 11) hsame
    simp only [dataToWord, extractLsb'_zeroExtend] at hd
    rw [hdec, Option.map_some, hd] at hback
    have hnear := distance_le_one_of_decodeBlock hback
    rw [distance, BitVec.xor_comm, ← BitVec.xor_assoc, BitVec.xor_self, BitVec.zero_xor] at hnear
    omega

/-- Settles O28: the decoder's data are those of a near codeword, and a word near a codeword is no double error. -/
theorem decodeFindsTheNearestCodeword : Obligations.DecodeFindsTheNearestCodeword := by
  intro s cw
  cases hdec : decodeBlock cw with
  | some d => exact ⟨_, exec_decode_some hdec, .inl ⟨d, distance_le_one_of_decodeBlock hdec, rfl, rfl⟩⟩
  | none =>
    refine ⟨_, exec_decode_none hdec, .inr ⟨fun d => ?_, rfl, rfl⟩⟩
    by_contra hnear
    have hpattern : decodeBlock (cw ^^^ encodeBlock d) = some 0 := by
      obtain h | ⟨p, h1, h16, h⟩ := weight_le_one_cases (x := cw ^^^ encodeBlock d) (by rw [distance] at hnear; omega)
      · rw [h, decodeBlock_patterns.1]
      · rw [h, decodeBlock_onehot ⟨h1, h16⟩]
    have hsome := decodeBlock_encodeBlock_xor d (cw ^^^ encodeBlock d)
    rw [hpattern, BitVec.xor_comm cw, ← BitVec.xor_assoc, BitVec.xor_self, BitVec.zero_xor, hdec] at hsome
    cases hsome

/-- What the injector does to a block is corrected where it flips at most one position, and detected where it flips two
(R159). -/
theorem injectorMask_decoded (c : Config) (r : Source) :
    weight (injectorMask c r).1 ≤ 1 ∧ decodeBlock (injectorMask c r).1 = some 0 ∨
    weight (injectorMask c r).1 = 2 ∧ decodeBlock (injectorMask c r).1 = none := by
  obtain h | ⟨p, h1, h15, h⟩ | ⟨p, q, hp1, hp15, hq1, hq15, h⟩ := injectorMask_light c r
  · rw [h]
    exact .inl ⟨by decide, decodeBlock_patterns.1⟩
  · have hp : 1 ≤ p ∧ p ≤ 16 := by omega
    rw [h, weight_onehot hp, decodeBlock_onehot hp]
    exact .inl ⟨le_rfl, rfl⟩
  · have hp : 1 ≤ p ∧ p ≤ 16 := by omega
    have hq : 1 ≤ q ∧ q ≤ 16 := by omega
    rw [h]
    by_cases hpq : p = q
    · rw [hpq, BitVec.xor_self]
      exact .inl ⟨by decide, decodeBlock_patterns.1⟩
    · exact .inr ⟨weight_onehot_xor hp hq hpq, decodeBlock_onehot_xor hp hq hpq⟩

/-- Settles O34: the mask CORRUPT applies is a pattern that DECODE corrects or detects. -/
theorem injectedErrorsNeverGiveWrongData : Obligations.InjectedErrorsNeverGiveWrongData := by
  intro s d hdraws
  obtain ⟨hw, hdec⟩ | ⟨hw, hdec⟩ := injectorMask_decoded s.cfg s.src
  · exact ⟨_, _, _, _, _, _, exec_encode d, rfl, exec_corrupt _ hdraws, rfl, rfl, exec_decode_pattern_zero hdec,
      .inl ⟨hw, rfl, rfl⟩⟩
  · exact ⟨_, _, _, _, _, _, exec_encode d, rfl, exec_corrupt _ hdraws, rfl, rfl, exec_decode_pattern_none hdec,
      .inr ⟨hw, rfl, rfl⟩⟩

end Sys2Proof.Slice0
end

section
/-! PROOFS. ENCODE in closed form over bus masks (R121). -/

namespace Sys2Proof.Slice0

open Sys2Proof.Machine

/-- The positions where a codeword holds the data bits that a mask of the data word keeps (R63). -/
def dataMaskPositions (m : DataWord) : List Nat :=
  ((List.range 11).filter m.getLsbD).map fun j => dataPositions.getD (10 - j) 0

/-- The parity of a masked data word is that of its codeword over the mask's positions (R63, R121). -/
theorem parity_and_eq_xorAt_encodeBlock (d m : DataWord) :
    parity (d &&& m) = xorAt (encodeBlock d) (dataMaskPositions m) := by
  obtain ⟨-, -, hext⟩ := encodeBlock_facts d
  rw [parity, xorAt, dataMaskPositions, List.foldl_map, List.foldl_filter]
  refine List.foldl_ext _ _ _ fun b j hj => ?_
  rw [← getLsbD_extract _ _ (List.mem_range.1 hj), hext, BitVec.getLsbD_and]
  cases m.getLsbD j <;> simp

/-- A parity over data positions is the parity of the data word under their mask. -/
theorem xorAt_encodeBlock_eq_parity {m : DataWord} {ps : List Nat} (d : DataWord)
    (h : ps.Perm (dataMaskPositions m)) : xorAt (encodeBlock d) ps = parity (d &&& m) := by
  rw [xorAt_eq_of_perm _ h, parity_and_eq_xorAt_encodeBlock]

/-- Two parities over one list together are the parity of the terms together. -/
theorem foldl_xor_xor (f g : Nat → Bool) (l : List Nat) (x y : Bool) :
    (l.foldl (fun b j => b ^^ f j) x ^^ l.foldl (fun b j => b ^^ g j) y) =
      l.foldl (fun b j => b ^^ (f j ^^ g j)) (x ^^ y) := by
  induction l generalizing x y with
  | nil => rfl
  | cons j l ih => rw [List.foldl_cons, List.foldl_cons, List.foldl_cons, ih, xor_swap]

/-- Parities of one data word under two masks together are its parity under the masks' exclusive-or. -/
theorem parity_and_xor (d m m' : DataWord) : (parity (d &&& m) ^^ parity (d &&& m')) = parity (d &&& (m ^^^ m')) := by
  rw [parity, parity, parity, foldl_xor_xor]
  simp only [BitVec.getLsbD_and, BitVec.getLsbD_xor, Bool.and_xor_distrib_left, Bool.xor_false]

/-- The five parity bits of a codeword over its data word (R121). In the overall parity, the data bits that an odd
number of the other four cover cancel. -/
theorem bitAt_encodeBlock_parity (d : DataWord) :
    bitAt (encodeBlock d) 1 = parity (d &&& 0x6D5#11) ∧ bitAt (encodeBlock d) 2 = parity (d &&& 0x5B3#11) ∧
    bitAt (encodeBlock d) 4 = parity (d &&& 0x38F#11) ∧ bitAt (encodeBlock d) 8 = parity (d &&& 0x07F#11) ∧
    bitAt (encodeBlock d) 16 = parity (d &&& 0x769#11) := by
  obtain ⟨-, h1, h2, h4, h8, h16⟩ := bitAt_encodeBlock d
  rw [xorAt_encodeBlock_eq_parity (m := 0x6D5) d (by decide)] at h1
  rw [xorAt_encodeBlock_eq_parity (m := 0x5B3) d (by decide)] at h2
  rw [xorAt_encodeBlock_eq_parity (m := 0x38F) d (by decide)] at h4
  rw [xorAt_encodeBlock_eq_parity (m := 0x07F) d (by decide)] at h8
  have hperm : positions1to15.Perm (1 :: 2 :: 4 :: 8 :: dataPositions) := by decide
  rw [xorAt_eq_of_perm _ hperm, xorAt_cons, xorAt_cons, xorAt_cons, xorAt_cons, h1, h2, h4, h8,
    xorAt_encodeBlock_eq_parity (m := 0x7FF) d (by decide), parity_and_xor, parity_and_xor, parity_and_xor,
    parity_and_xor] at h16
  exact ⟨h1, h2, h4, h8, h16⟩

/-- Settles O20: bit by bit in the order of the bus, the data at their positions and the five parities. -/
theorem encodeInClosedForm : Obligations.EncodeInClosedForm := by
  intro s d
  refine ⟨_, exec_encode d, congrArg some ?_⟩
  obtain ⟨⟨h3, h5, h6, h7, h9, h10, h11, h12, h13, h14, h15⟩, -⟩ := bitAt_encodeBlock d
  obtain ⟨h1, h2, h4, h8, h16⟩ := bitAt_encodeBlock_parity d
  refine eq_of_bitAt_eq fun p hp1 hp16 => ?_
  simp only [bitAt, BitVec.getLsbD_append, BitVec.getLsbD_extractLsb', BitVec.getLsbD_ofBool]
  interval_cases p <;> simp <;> assumption
end Sys2Proof.Slice0
end

section
/-! PROOFS. The statements about FLIPPOS (R81) and the lines that assemble (R79, R80). -/

namespace Sys2Proof.Slice0

open Sys2Proof.Machine

theorem legalPosition_iff (p : Nat) : legalPosition p = true ↔ 1 ≤ p ∧ p ≤ 16 := by
  simp [legalPosition]

/-- A FLIPPOS with a position outside 1..16 is ill-formed (R81). -/
theorem flippos_not_wf {cw : Word} {p : Nat} {q : Option Nat}
    (h : ¬ (1 ≤ p ∧ p ≤ 16) ∨ ∃ r, q = some r ∧ ¬ (1 ≤ r ∧ r ≤ 16)) : (Instr.flippos cw p q).wf = false := by
  simp only [← legalPosition_iff, Bool.not_eq_true] at h
  obtain hp | ⟨r, rfl, hr⟩ := h
  · cases q <;> simp [Instr.wf, hp]
  · simp [Instr.wf, hr]

/-- A FLIPPOS line with one position is the FLIP it expands to, or an error (R81). -/
theorem assembleLine_flippos_eq {w pc : List Char} {cw : Word} {p : Nat} (hw : codeLiteral w = some cw)
    (hp : numeral 10 pc = some p) : assembleLine ("FLIPPOS ".toList ++ w ++ ", ".toList ++ pc) =
      if 1 ≤ p ∧ p ≤ 16 then .ok (some (.command (encode (.flip cw (onehot p))) none)) else .error .badPosition := by
  have hline : "FLIPPOS ".toList ++ w ++ ", ".toList ++ pc = "FLIPPOS ".toList ++ (w ++ ',' :: ' ' :: pc) := by
    simp only [List.append_assoc]
    rfl
  rw [hline, assembleLine_flippos hw hp, flipposLine]
  simp only [legalPosition_iff]
  split <;> rfl

/-- A FLIPPOS line with two positions is the FLIP it expands to, or an error (R81). -/
theorem assembleLine_flippos_two_eq {w pc qc : List Char} {cw : Word} {p q : Nat} (hw : codeLiteral w = some cw)
    (hp : numeral 10 pc = some p) (hq : numeral 10 qc = some q) :
    assembleLine ("FLIPPOS ".toList ++ w ++ ", ".toList ++ pc ++ ", ".toList ++ qc) =
      if (1 ≤ p ∧ p ≤ 16) ∧ 1 ≤ q ∧ q ≤ 16 then
        .ok (some (.command (encode (.flip cw (onehot p ^^^ onehot q))) none))
      else .error .badPosition := by
  have hline : "FLIPPOS ".toList ++ w ++ ", ".toList ++ pc ++ ", ".toList ++ qc =
      "FLIPPOS ".toList ++ (w ++ ',' :: ' ' :: (pc ++ ',' :: ' ' :: qc)) := by
    simp only [List.append_assoc]
    rfl
  rw [hline, assembleLine_flippos_two hw hp hq, flipposLine]
  simp only [Bool.and_eq_true, legalPosition_iff]
  split <;> rfl

/-- Settles O36: FLIPPOS is the FLIP by its mask, whose bits are those of the positions; a line is read whole, and its
positions are checked. -/
theorem flipposIsOneFlip : Obligations.FlipposIsOneFlip := by
  refine ⟨fun s cw p hp1 hp16 => ⟨onehot p, rfl, rfl, fun j hj1 hj16 => bitAt_onehot ⟨hp1, hp16⟩ ⟨hj1, hj16⟩⟩,
    fun s cw p q hp1 hp16 hq1 hq16 => ⟨onehot p ^^^ onehot q, rfl, rfl, ?_, fun j hj1 hj16 => ?_⟩,
    fun _ _ _ => flippos_not_wf, fun _ _ _ _ => assembleLine_flippos_eq, fun _ _ _ _ _ _ => assembleLine_flippos_two_eq⟩
  · rintro rfl
    exact BitVec.xor_self
  · rw [bitAt_xor, bitAt_onehot ⟨hp1, hp16⟩ ⟨hj1, hj16⟩, bitAt_onehot ⟨hq1, hq16⟩ ⟨hj1, hj16⟩]

/-- Whatever command the assembler gives is legal, or SEED 0, with an operand of its type. -/
def OnlyLegal (e : Except AsmError Issued) : Prop :=
  ∀ c, e = .ok c → (c.1.wf = true ∨ c.1 = .seed 0) ∧ sinTyped c.1 c.2

theorem onlyLegal_error (x : AsmError) : OnlyLegal (.error x) := fun _ h => by cases h

theorem onlyLegal_ok {c : Issued} (hwf : c.1.wf = true) (hsin : sinTyped c.1 c.2) : OnlyLegal (.ok c) :=
  fun _ h => by cases h; exact ⟨.inl hwf, hsin⟩

theorem onlyLegal_ite {p : Prop} [Decidable p] {a b : Except AsmError Issued} (ha : OnlyLegal a) (hb : OnlyLegal b) :
    OnlyLegal (if p then a else b) := by
  split
  · exact ha
  · exact hb

theorem onlyLegal_need {α : Type} {v : Option α} {f : α → Issued} (hf : ∀ x, OnlyLegal (.ok (f x))) :
    OnlyLegal (need v f) := by
  cases v with
  | none => exact onlyLegal_error _
  | some x => exact hf x

theorem onlyLegal_flipposLine (cw : Option Word) (p : Option Nat) (q : Option (Option Nat)) :
    OnlyLegal (flipposLine cw p q) := by
  unfold flipposLine
  split
  · split
    next hp => exact onlyLegal_ok hp trivial
    next => exact onlyLegal_error _
  · split
    next hpq => exact onlyLegal_ok hpq trivial
    next => exact onlyLegal_error _
  · exact onlyLegal_error _

theorem onlyLegal_seed (a : Word) : OnlyLegal (.ok (.seed a, none)) := by
  by_cases ha : a = 0
  · rintro _ ⟨⟩
    exact ⟨.inr (congrArg Instr.seed ha), trivial⟩
  · exact onlyLegal_ok (bne_iff_ne.2 ha) trivial

/-- Mnemonic by mnemonic, the command has the operands of its row (R73, R80, R81). -/
theorem onlyLegal_command (m : List Char) (ops : List Token) : OnlyLegal (command m ops) := by
  unfold command
  refine onlyLegal_ite ?tobits <| onlyLegal_ite ?totext <| onlyLegal_ite ?split <| onlyLegal_ite ?reassemble <|
    onlyLegal_ite ?encode <| onlyLegal_ite ?decode <| onlyLegal_ite ?syndrome <| onlyLegal_ite ?corrupt <|
    onlyLegal_ite ?flip <| onlyLegal_ite ?loss <| onlyLegal_ite ?process <| onlyLegal_ite ?seed <|
    onlyLegal_ite ?flippos <| onlyLegal_error _
  case totext => exact onlyLegal_need fun _ => onlyLegal_ok rfl trivial
  case split => exact onlyLegal_need fun _ => onlyLegal_ok rfl trivial
  case reassemble => exact onlyLegal_need fun _ => onlyLegal_ok rfl trivial
  case seed =>
    split
    · exact onlyLegal_need onlyLegal_seed
    · exact onlyLegal_error _
  case flip =>
    split
    · split
      · exact onlyLegal_need fun _ => onlyLegal_ok rfl trivial
      · exact onlyLegal_error _
    · exact onlyLegal_error _
  case flippos =>
    split
    · exact onlyLegal_flipposLine _ _ _
    · exact onlyLegal_flipposLine _ _ _
    · exact onlyLegal_error _
  case tobits | loss | process =>
    split
    · exact onlyLegal_ok rfl trivial
    · exact onlyLegal_error _
  case encode | decode | syndrome | corrupt =>
    split
    · exact onlyLegal_need fun _ => onlyLegal_ok rfl trivial
    · exact onlyLegal_error _

/-- Settles O12: a line that assembles to an event is one mnemonic with its operands. -/
theorem assembledLinesAreCommands : Obligations.AssembledLinesAreCommands := by
  intro line e h
  unfold assembleLine at h
  split at h
  · cases h
  · cases h
  next m ops _ =>
    cases hc : command m ops with
    | error x => rw [hc] at h; cases h
    | ok c =>
      rw [hc] at h
      cases h
      obtain ⟨hlegal, hsin⟩ := onlyLegal_command m ops c hc
      exact ⟨c.1, c.2, rfl, hlegal, hsin⟩
  · cases h

end Sys2Proof.Slice0
end

section
/-! PROOFS. The statements about refusals: which commands complete, and why the others do not (R41, R157, R162,
R207). -/

namespace Sys2Proof.Slice0

open Sys2Proof.Machine

/-- No refusal applies to the command (R207, in the words of O47). -/
def Accepts (i : Instr) (s : State) : Prop :=
  isReserved i = false ∧ i ≠ .seed 0 ∧ sinFits s.cfg i s.sin = true ∧
    (takesDraws i = true → drawsAllowed s.cfg = true)

/-- The refusal `r` applies to the command (R207, in the words of O47). -/
def RefusedFor (i : Instr) (s : State) (r : Refusal) : Prop :=
  (r = .reservedOpcode ∧ isReserved i = true) ∨ (r = .zeroSeed ∧ i = .seed 0) ∨
  (r = .tooLong ∧ sinTyped i s.sin ∧ emptySin i ≠ none ∧ sinFits s.cfg i s.sin = false) ∨
  (r = .operandMismatch ∧ emptySin i ≠ none ∧ ¬ sinTyped i s.sin) ∨
  (r = .badProbability ∧ takesDraws i = true ∧ drawsAllowed s.cfg = false)

/-- The outcome is a next state and no refusal applies, or it is a refusal that applies. -/
def Settled (i : Instr) (s : State) (o : Out) : Prop :=
  (Accepts i s ∧ ∃ t, o = .next t) ∨ ∃ r, o = .refused r ∧ RefusedFor i s r

variable {i : Instr} {s : State}

/-- A command without operand has it. -/
theorem sinFits_of_emptySin_none (h : emptySin i = none) (c : Config) (v : Option SeqVal) : sinFits c i v = true := by
  simp only [sinFits, h]

/-- An operand that fits has the command's type. -/
theorem sinTyped_of_sinFits {c : Config} {v : Option SeqVal} (hi : emptySin i ≠ none) (h : sinFits c i v = true) :
    sinTyped i v := by
  unfold sinFits at h
  split at h
  case h_1 hnone => exact absurd hnone hi
  case h_5 => cases h
  all_goals simp only [sinTyped, *]

/-- No refusal applies to an accepted command. -/
theorem not_refusedFor_of_accepts {r : Refusal} (h : Accepts i s) : ¬ RefusedFor i s r := by
  obtain ⟨hres, hseed, hfit, hdraws⟩ := h
  rintro (⟨-, h⟩ | ⟨-, h⟩ | ⟨-, -, -, h⟩ | ⟨-, hsin, h⟩ | ⟨-, htakes, h⟩)
  · rw [hres] at h; cases h
  · exact hseed h
  · rw [hfit] at h; cases h
  · exact h (sinTyped_of_sinFits hsin hfit)
  · rw [hdraws htakes] at h; cases h

theorem sinTyped_text_iff {v : Option SeqVal} (hi : emptySin i = some (.text [])) :
    sinTyped i v ↔ ∃ x, v = some (.text x) := by
  obtain _ | (x | x | x) := v <;> simp [sinTyped, hi]

theorem sinFits_text {c : Config} {x : List Symbol} (hi : emptySin i = some (.text [])) :
    sinFits c i (some (.text x)) = decide (x.length ≤ c.maxChars) := by
  simp only [sinFits, hi]

theorem settled_withText {k : List Symbol → Out} (hi : emptySin i = some (.text []))
    (hk : ∀ x, sinFits s.cfg i s.sin = true → Settled i s (k x)) : Settled i s (s.withText k) := by
  obtain ⟨x, hs, hl, h⟩ | ⟨x, hs, hl, h⟩ | ⟨hs, h⟩ := withText_cases s k
  · rw [h]
    exact hk x (by rw [hs, sinFits_text hi, decide_eq_true hl])
  · refine .inr ⟨_, h, .inr (.inr (.inl ⟨rfl, (sinTyped_text_iff hi).2 ⟨x, hs⟩, by simp [hi], ?_⟩))⟩
    rw [hs, sinFits_text hi, decide_eq_false (Nat.not_le.2 hl)]
  · refine .inr ⟨_, h, .inr (.inr (.inr (.inl ⟨rfl, by simp [hi], fun htyped => ?_⟩)))⟩
    obtain ⟨x, hx⟩ := (sinTyped_text_iff hi).1 htyped
    exact hs x hx

theorem sinTyped_bits_iff {v : Option SeqVal} (hi : emptySin i = some (.bits [])) :
    sinTyped i v ↔ ∃ x, v = some (.bits x) := by
  obtain _ | (x | x | x) := v <;> simp [sinTyped, hi]

theorem sinFits_bits {c : Config} {x : List Bit} (hi : emptySin i = some (.bits [])) :
    sinFits c i (some (.bits x)) = decide (x.length ≤ c.maxChars) := by
  simp only [sinFits, hi]

theorem settled_withBits {k : List Bit → Out} (hi : emptySin i = some (.bits []))
    (hk : ∀ x, sinFits s.cfg i s.sin = true → Settled i s (k x)) : Settled i s (s.withBits k) := by
  obtain ⟨x, hs, hl, h⟩ | ⟨x, hs, hl, h⟩ | ⟨hs, h⟩ := withBits_cases s k
  · rw [h]
    exact hk x (by rw [hs, sinFits_bits hi, decide_eq_true hl])
  · refine .inr ⟨_, h, .inr (.inr (.inl ⟨rfl, (sinTyped_bits_iff hi).2 ⟨x, hs⟩, by simp [hi], ?_⟩))⟩
    rw [hs, sinFits_bits hi, decide_eq_false (Nat.not_le.2 hl)]
  · refine .inr ⟨_, h, .inr (.inr (.inr (.inl ⟨rfl, by simp [hi], fun htyped => ?_⟩)))⟩
    obtain ⟨x, hx⟩ := (sinTyped_bits_iff hi).1 htyped
    exact hs x hx

theorem sinTyped_blocks_iff {v : Option SeqVal} (hi : emptySin i = some (.blocks [])) :
    sinTyped i v ↔ ∃ x, v = some (.blocks x) := by
  obtain _ | (x | x | x) := v <;> simp [sinTyped, hi]

theorem sinFits_blocks {c : Config} {x : List DataWord} (hi : emptySin i = some (.blocks [])) :
    sinFits c i (some (.blocks x)) = decide (x.length ≤ c.maxChars) := by
  simp only [sinFits, hi]

theorem settled_withBlocks {k : List DataWord → Out} (hi : emptySin i = some (.blocks []))
    (hk : ∀ x, sinFits s.cfg i s.sin = true → Settled i s (k x)) : Settled i s (s.withBlocks k) := by
  obtain ⟨x, hs, hl, h⟩ | ⟨x, hs, hl, h⟩ | ⟨hs, h⟩ := withBlocks_cases s k
  · rw [h]
    exact hk x (by rw [hs, sinFits_blocks hi, decide_eq_true hl])
  · refine .inr ⟨_, h, .inr (.inr (.inl ⟨rfl, (sinTyped_blocks_iff hi).2 ⟨x, hs⟩, by simp [hi], ?_⟩))⟩
    rw [hs, sinFits_blocks hi, decide_eq_false (Nat.not_le.2 hl)]
  · refine .inr ⟨_, h, .inr (.inr (.inr (.inl ⟨rfl, by simp [hi], fun htyped => ?_⟩)))⟩
    obtain ⟨x, hx⟩ := (sinTyped_blocks_iff hi).1 htyped
    exact hs x hx

/-- The guard of a drawing command, its operand read. -/
theorem settled_withDraws {t : State} (hres : isReserved i = false) (hseed : i ≠ .seed 0)
    (hfit : sinFits s.cfg i s.sin = true) (hi : takesDraws i = true) : Settled i s (s.withDraws (.next t)) := by
  obtain ⟨ha, h⟩ | ⟨ha, h⟩ := withDraws_cases s (.next t)
  · exact .inl ⟨⟨hres, hseed, hfit, fun _ => ha⟩, t, h⟩
  · exact .inr ⟨_, h, .inr (.inr (.inr (.inr ⟨rfl, hi, ha⟩)))⟩

/-- A command that does not draw, its operand read. -/
theorem settled_next {t : State} (hres : isReserved i = false) (hseed : i ≠ .seed 0)
    (hfit : sinFits s.cfg i s.sin = true) (hi : takesDraws i = false) : Settled i s (.next t) :=
  .inl ⟨⟨hres, hseed, hfit, fun h => absurd h (by rw [hi]; decide)⟩, t, rfl⟩

theorem settled_reserved (hi : isReserved i = true) : Settled i s (.refused .reservedOpcode) :=
  .inr ⟨_, rfl, .inl ⟨rfl, hi⟩⟩

/-- Every command's outcome, by the command: its operand is read, its draws are allowed, or the refusal is for it. -/
theorem exec_settled (i : Instr) (s : State) : Settled i s (exec i s) := by
  cases i with
  | tobits => exact settled_withText rfl fun x hfit => settled_next rfl Instr.noConfusion hfit rfl
  | totext => exact settled_withBits rfl fun x hfit => settled_next rfl Instr.noConfusion hfit rfl
  | split => exact settled_withBits rfl fun x hfit => settled_next rfl Instr.noConfusion hfit rfl
  | reassemble => exact settled_withBlocks rfl fun x hfit => settled_next rfl Instr.noConfusion hfit rfl
  | process => exact settled_withText rfl fun x hfit => settled_withDraws rfl Instr.noConfusion hfit rfl
  | corrupt cw => exact settled_withDraws rfl Instr.noConfusion (sinFits_of_emptySin_none rfl _ _) rfl
  | loss => exact settled_withDraws rfl Instr.noConfusion (sinFits_of_emptySin_none rfl _ _) rfl
  | seed a =>
    by_cases ha : a = 0
    · subst ha
      exact .inr ⟨_, rfl, .inr (.inl ⟨rfl, rfl⟩)⟩
    · rw [exec_seed ha]
      exact settled_next rfl (fun h => ha (Instr.seed.inj h)) (sinFits_of_emptySin_none rfl _ _) rfl
  | reserved0 => exact settled_reserved rfl
  | reservedD => exact settled_reserved rfl
  | reservedE => exact settled_reserved rfl
  | reservedF => exact settled_reserved rfl
  | _ => exact settled_next rfl Instr.noConfusion (sinFits_of_emptySin_none rfl _ _) rfl

/-- Settles O47: an outcome is one or the other, and never both. -/
theorem commandsCompleteUnlessRefused : Obligations.CommandsCompleteUnlessRefused := by
  intro i s
  obtain ⟨haccept, t, ht⟩ | ⟨r, hr, hreason⟩ := exec_settled i s
  · exact ⟨⟨fun _ => haccept, fun _ => ⟨t, ht⟩⟩, fun r hr => by cases ht.symm.trans hr⟩
  · refine ⟨⟨fun ⟨t, ht⟩ => (by cases ht.symm.trans hr), fun h => absurd hreason (not_refusedFor_of_accepts h)⟩, ?_⟩
    intro r' hr'
    cases hr.symm.trans hr'
    exact hreason

theorem withText_tooLong {k : List Symbol → Out} {x : List Symbol} (hs : s.sin = some (.text x))
    (hl : s.cfg.maxChars < x.length) : s.withText k = .refused .tooLong := by
  simp [State.withText, hs, tooLong_eq_true.2 hl]

theorem withBits_tooLong {k : List Bit → Out} {x : List Bit} (hs : s.sin = some (.bits x))
    (hl : s.cfg.maxChars < x.length) : s.withBits k = .refused .tooLong := by
  simp [State.withBits, hs, tooLong_eq_true.2 hl]

theorem withBlocks_tooLong {k : List DataWord → Out} {x : List DataWord} (hs : s.sin = some (.blocks x))
    (hl : s.cfg.maxChars < x.length) : s.withBlocks k = .refused .tooLong := by
  simp [State.withBlocks, hs, tooLong_eq_true.2 hl]

/-- Settles O48: the operand is read, and its length checked, before anything else. -/
theorem overlongOperandsAreRefused : Obligations.OverlongOperandsAreRefused := by
  refine fun s t b d => ⟨fun h => ⟨?_, ?_⟩, fun h => ⟨?_, ?_⟩, fun h => ?_⟩
  · rw [exec, execTobits, withText_tooLong (s := { s with sin := some (.text t) }) rfl h]
  · rw [exec, execProcess, withText_tooLong (s := { s with sin := some (.text t) }) rfl h]
  · rw [exec, execTotext, withBits_tooLong (s := { s with sin := some (.bits b) }) rfl h]
  · rw [exec, execSplit, withBits_tooLong (s := { s with sin := some (.bits b) }) rfl h]
  · rw [exec, execReassemble, withBlocks_tooLong (s := { s with sin := some (.blocks d) }) rfl h]

end Sys2Proof.Slice0
end

section
/-! SUPPORT. Draws, mode by mode: their values, the source after them, and how many a command takes (R150-R158,
R187). -/

namespace Sys2Proof.Slice0

open Sys2Proof.Machine

variable {c : Config} {r : Source}

theorem drawsAllowed_free (hfree : c.rngMode = .free) : drawsAllowed c = true := by rw [drawsAllowed, hfree]

/-- Under FREE mode a draw leaves `lfsr` alone (R152). -/
theorem advance_free (hfree : c.rngMode = .free) (r : Source) : r.advance c = afterFreeDraw r := by
  simp only [Source.advance, hfree, afterFreeDraw]

variable {e e1 e2 e3 e4 : DrawEnv} {es : List DrawEnv}

/-- Under FREE mode a Bit draw is the environment's answer (R152). -/
theorem bit_free (hfree : c.rngMode = .free) (henv : r.env = e :: es) (k : BitDraw) : r.bit c k = e.bit := by
  simp only [Source.bit, hfree, Source.next, henv]

/-- Under FREE mode a position drawn is the environment's answer (R152). -/
theorem pos_free (hfree : c.rngMode = .free) (henv : r.env = e :: es) : r.pos c = e.pos.val + 1 := by
  simp only [Source.pos, hfree, Source.next, henv]

/-- The source after draws under FREE mode that the environment has answered (R152). -/
theorem advance_free_env (hfree : c.rngMode = .free) (henv : r.env = e :: es) :
    r.advance c = { r with env := es, drawn := r.drawn + 1 } := by
  rw [advance_free hfree, afterFreeDraw, henv, List.tail_cons]

/-- No event: one draw (R158). -/
theorem injectorMask_none (h : r.bit c .eventd = false) : injectorMask c r = (0, r.advance c) := by
  simp [injectorMask, h]

/-- An event that is no double: three draws (R158). -/
theorem injectorMask_single (h : r.bit c .eventd = true) (h2 : (r.advance c).bit c .doubled = false) :
    injectorMask c r = (onehot (((r.advance c).advance c).pos c), ((r.advance c).advance c).advance c) := by
  simp [injectorMask, h, h2]

/-- A double: four draws (R158). -/
theorem injectorMask_double (h : r.bit c .eventd = true) (h2 : (r.advance c).bit c .doubled = true) :
    injectorMask c r =
      (onehot (((r.advance c).advance c).pos c) ^^^ onehot ((((r.advance c).advance c).advance c).pos c),
        (((r.advance c).advance c).advance c).advance c) := by
  simp [injectorMask, h, h2]

/-- The injector on the answers 1, 0 and a position (R158). -/
theorem injectorMask_free_single (hfree : c.rngMode = .free) (henv : r.env = e1 :: e2 :: e3 :: es)
    (h1 : e1.bit = true) (h2 : e2.bit = false) :
    injectorMask c r = (onehot (e3.pos.val + 1), { r with env := es, drawn := r.drawn + 3 }) := by
  rw [injectorMask_single (by rw [bit_free hfree henv, h1])
    (by rw [advance_free_env hfree henv, bit_free hfree rfl, h2]), advance_free_env hfree henv,
    advance_free_env hfree rfl, pos_free hfree rfl, advance_free_env hfree rfl]

/-- The injector on the answers 1, 1 and two positions (R158). -/
theorem injectorMask_free_double (hfree : c.rngMode = .free) (henv : r.env = e1 :: e2 :: e3 :: e4 :: es)
    (h1 : e1.bit = true) (h2 : e2.bit = true) :
    injectorMask c r = (onehot (e3.pos.val + 1) ^^^ onehot (e4.pos.val + 1),
      { r with env := es, drawn := r.drawn + 4 }) := by
  rw [injectorMask_double (by rw [bit_free hfree henv, h1])
    (by rw [advance_free_env hfree henv, bit_free hfree rfl, h2]), advance_free_env hfree henv,
    advance_free_env hfree rfl, pos_free hfree rfl, advance_free_env hfree rfl, pos_free hfree rfl,
    advance_free_env hfree rfl]

/-- Under REF_LFSR a draw is 16 steps from what the peers left (R54, R155). -/
theorem advance_ref (hmode : c.rngMode = .refLfsr) (r : Source) :
    r.advance c = { afterFreeDraw r with lfsr := lfsrSteps 16 (peerActs c r.lfsr r.next.peers) } := by
  simp only [Source.advance, hmode, afterFreeDraw, lfsrDraw]

/-- Under REF_LFSR a Bit draw compares `u mod 100` with the threshold (R157). -/
theorem bit_ref (hmode : c.rngMode = .refLfsr) (k : BitDraw) (r : Source) :
    r.bit c k = decide ((r.advance c).lfsr.toNat % 100 * (probOf c k).den < 100 * (probOf c k).num) := by
  simp only [Source.bit, hmode]
  rfl

/-- Under REF_LFSR a position drawn is `1 + u mod 15` (R157). -/
theorem pos_ref (hmode : c.rngMode = .refLfsr) (r : Source) : r.pos c = 1 + (r.advance c).lfsr.toNat % 15 := by
  simp only [Source.pos, hmode, posFrom]

/-- `n` draws count as `n`. -/
theorem iterate_advance_drawn (c : Config) (n : Nat) (r : Source) : ((Source.advance c)^[n] r).drawn = r.drawn + n := by
  induction n with
  | zero => rfl
  | succ n ih => rw [Function.iterate_succ_apply', Source.advance_drawn, ih]; rfl

/-- Under REF_LFSR, with no other on the source, `n` draws are 16 steps each (R155). -/
theorem iterate_advance_lfsr (hmode : c.rngMode = .refLfsr) (hone : c.nInstances ≤ 1) (n : Nat) (r : Source) :
    ((Source.advance c)^[n] r).lfsr = lfsrSteps (16 * n) r.lfsr := by
  induction n with
  | zero => rfl
  | succ n ih =>
    rw [Function.iterate_succ_apply', Source.advance_lfsr_ref _ _ hmode hone, ih, lfsrDraw, ← lfsrSteps_add,
      Nat.mul_succ]

/-- The injector takes 1, 3 or 4 draws, and 4 where the decoder detects its flips (R158, R187). -/
theorem injectorMask_draws (c : Config) (r : Source) : ∃ n, (injectorMask c r).2 = (Source.advance c)^[n] r ∧
    (n = 1 ∨ n = 3 ∨ n = 4) ∧ (decodeBlock (injectorMask c r).1 = none → n = 4) := by
  obtain h | ⟨p, h1, h15, h⟩ | ⟨p, q, -, -, -, -, h⟩ := injectorMask_cases c r
  · refine ⟨1, by rw [h]; rfl, .inl rfl, fun hnone => ?_⟩
    rw [h, decodeBlock_patterns.1] at hnone
    cases hnone
  · refine ⟨3, by rw [h]; rfl, .inr (.inl rfl), fun hnone => ?_⟩
    rw [h, decodeBlock_onehot (by omega)] at hnone
    cases hnone
  · exact ⟨4, by rw [h]; rfl, .inr (.inr rfl), fun _ => rfl⟩

/-- A block fails exactly where the decoder detects its flips (R181). -/
theorem processBlock_eq_none_iff (c : Config) (d : DataWord) (r : Source) :
    (processBlock c d r).1 = none ↔ decodeBlock (injectorMask c r).1 = none := by
  rw [processBlock, decodeBlock_encodeBlock_xor, Option.map_eq_none_iff]

/-- The draws of the block loop: at most 4 a block, at least 1 a block where it gives data, and at least the 4 of the
failed block where it does not (R183, R187). -/
theorem processBlocks_draws (c : Config) (ds acc : List DataWord) (r : Source) :
    ∃ n, (processBlocks c ds acc r).2 = (Source.advance c)^[n] r ∧ n ≤ 4 * ds.length ∧
      ((processBlocks c ds acc r).1 = none → 4 ≤ n) ∧
      ∀ x, (processBlocks c ds acc r).1 = some x → ds.length ≤ n := by
  induction ds generalizing acc r with
  | nil => exact ⟨0, rfl, le_rfl, nofun, fun _ _ => le_rfl⟩
  | cons d ds ih =>
    obtain ⟨k, hk, hcount, hfour⟩ := injectorMask_draws c r
    cases hd : (processBlock c d r).1 with
    | none =>
      have hk4 := hfour ((processBlock_eq_none_iff c d r).1 hd)
      rw [processBlocks_cons_none c hd, List.length_cons]
      exact ⟨k, hk, by omega, fun _ => by omega, fun x h => by cases h⟩
    | some x =>
      obtain ⟨n, hn, hle, hnone, hsome⟩ := ih (acc ++ [x]) (injectorMask c r).2
      rw [processBlocks_cons_some c hd, List.length_cons]
      refine ⟨n + k, ?_, by omega, fun h => ?_, fun y h => ?_⟩
      · rw [hn, hk, Function.iterate_add_apply]
      · have := hnone h
        omega
      · have := hsome y h
        omega

/-- The draws of PROCESS by its status (R187): `n` of them on a payload of `b` blocks. -/
def ProcessDraws (b : Nat) (st : Option Status) (n : Nat) : Prop :=
  (st = some .loss → n = 1) ∧ (st = some .ok → 1 + b ≤ n ∧ n ≤ 1 + 4 * b) ∧ (st = some .ded → 5 ≤ n ∧ n ≤ 1 + 4 * b)

theorem processText_draws (t : List Symbol) (s : State) :
    ∃ n, (processText t s).src = (Source.advance s.cfg)^[n] s.src ∧
      ProcessDraws (blockCount t.length) (processText t s).result.status n := by
  obtain ⟨n, hn, hle, hnone, hsome⟩ :=
    processBlocks_draws s.cfg (splitBits (textToBits t)) [] (s.src.advance s.cfg)
  rw [length_splitBits, length_textToBits] at hle hsome
  obtain ⟨-, hp⟩ | ⟨-, r, hr, hp⟩ | ⟨-, r, hr, hp⟩ := processText_cases t s
  · rw [hp]
    exact ⟨1, rfl, fun _ => rfl, nofun, nofun⟩
  · have h4 := hnone (by rw [hr])
    rw [hr] at hn
    rw [hp]
    exact ⟨n + 1, hn, nofun, nofun, fun _ => by omega⟩
  · have hall := hsome _ (by rw [hr])
    rw [hr] at hn
    rw [hp]
    exact ⟨n + 1, hn, nofun, fun _ => by omega, nofun⟩

end Sys2Proof.Slice0
end

section
/-! PROOFS. The statements about LOSS and CORRUPT (R152, R155-R161) and about the number of draws (R155, R187). -/

namespace Sys2Proof.Slice0

open Sys2Proof.Machine

/-- Settles O30: LOSS is one `advance`, and its flag the draw. -/
theorem lossReportsItsDraw : Obligations.LossReportsItsDraw := by
  refine fun s => ⟨fun hfree => ⟨s.src.bit s.cfg .lossd, ?_, fun e es henv => bit_free hfree henv _⟩,
    fun hmode hdraws => ⟨peerActs s.cfg s.lfsr s.src.next.peers, fun hone => if_pos hone, ?_⟩⟩
  · rw [exec_loss (drawsAllowed_free hfree), advance_free hfree, bitToWord_eq]
    rfl
  · rw [exec_loss hdraws, bitToWord_eq, bit_ref hmode, advance_ref hmode]
    simp only [decide_eq_true_eq]
    rfl

/-- Settles O31: by the first answers of the environment, the injector's three cases. -/
theorem corruptFollowsItsDraws : Obligations.CorruptFollowsItsDraws := by
  intro s cw hfree
  refine ⟨fun e1 rest henv h1 => ?_, fun e1 e2 e3 rest henv h1 h2 => ?_, fun e1 e2 e3 e4 rest henv h1 h2 => ?_⟩
  · rw [exec_corrupt cw (drawsAllowed_free hfree), injectorMask_none (by rw [bit_free hfree henv, h1]),
      advance_free hfree, show cw ^^^ 0 = cw from BitVec.xor_zero]
    rfl
  · rw [exec_corrupt cw (drawsAllowed_free hfree), injectorMask_free_single hfree henv h1 h2]
    rfl
  · rw [exec_corrupt cw (drawsAllowed_free hfree), injectorMask_free_double hfree henv h1 h2]
    rfl

/-- Settles O32: the draws are successive iterates of `advance`, 16 steps each. -/
theorem corruptUnderTheReferenceLfsr : Obligations.CorruptUnderTheReferenceLfsr := by
  intro s cw hmode hdraws hone
  have hlfsr (n : Nat) := iterate_advance_lfsr hmode hone n s.src
  have hevent := bit_ref hmode .eventd s.src
  have hdouble := bit_ref hmode .doubled (s.src.advance s.cfg)
  have hpos := pos_ref hmode ((s.src.advance s.cfg).advance s.cfg)
  have hpos' := pos_ref hmode (((s.src.advance s.cfg).advance s.cfg).advance s.cfg)
  rw [show (s.src.advance s.cfg).lfsr = _ from hlfsr 1] at hevent
  rw [show ((s.src.advance s.cfg).advance s.cfg).lfsr = _ from hlfsr 2] at hdouble
  rw [show (((s.src.advance s.cfg).advance s.cfg).advance s.cfg).lfsr = _ from hlfsr 3] at hpos
  rw [show ((((s.src.advance s.cfg).advance s.cfg).advance s.cfg).advance s.cfg).lfsr = _ from hlfsr 4] at hpos'
  refine ⟨_, _, exec_corrupt cw hdraws, rfl, ?_⟩
  split
  next h1 =>
    have hevent := hevent.trans (decide_eq_true h1)
    split
    next h2 =>
      have hdouble := hdouble.trans (decide_eq_true h2)
      rw [injectorMask_double hevent hdouble, hpos, hpos']
      exact ⟨rfl, hlfsr 4⟩
    next h2 =>
      have hdouble := hdouble.trans (decide_eq_false h2)
      rw [injectorMask_single hevent hdouble, hpos]
      exact ⟨rfl, hlfsr 3⟩
  next h1 =>
    have hevent := hevent.trans (decide_eq_false h1)
    rw [injectorMask_none hevent]
    exact ⟨rfl, hlfsr 1⟩

/-- The injector's mask is light and leaves position 16 alone (R159). -/
theorem injectorMask_weight (c : Config) (r : Source) :
    (injectorMask c r).1.getLsbD 0 = false ∧ weight (injectorMask c r).1 ≤ 2 := by
  have hbit {p : Nat} (h1 : 1 ≤ p) (h15 : p ≤ 15) : (onehot p).getLsbD 0 = false := by
    rw [getLsbD_onehot p 0 (by decide), decide_eq_false (by omega)]
  constructor
  · obtain h | ⟨p, h1, h15, h⟩ | ⟨p, q, hp1, hp15, hq1, hq15, h⟩ := injectorMask_light c r
    · rw [h]; rfl
    · rw [h, hbit h1 h15]
    · rw [h, BitVec.getLsbD_xor, hbit hp1 hp15, hbit hq1 hq15]; rfl
  · obtain ⟨hw, -⟩ | ⟨hw, -⟩ := injectorMask_decoded c r <;> omega

/-- The answers of the environment that make the injector apply a light mask without position 16 (R159). -/
theorem exists_env_of_weight {c : Config} (hfree : c.rngMode = .free) (r : Source) {m : Word}
    (hbit : m.getLsbD 0 = false) (hw : weight m ≤ 2) : ∃ env, (injectorMask c { r with env := env }).1 = m := by
  have hlast : bitAt m 16 = false := hbit
  have hpos {p : Nat} (hp : 1 ≤ p ∧ p ≤ 16) (hne : p ≠ 16) : ∃ x : Fin 15, x.val + 1 = p :=
    ⟨⟨p - 1, by omega⟩, by simp only; omega⟩
  by_cases hle : weight m ≤ 1
  · obtain rfl | ⟨p, h1, h16, rfl⟩ := weight_le_one_cases hle
    · exact ⟨[⟨false, 0, []⟩], by rw [injectorMask_none (by rw [bit_free hfree rfl])]⟩
    · rw [bitAt_onehot ⟨h1, h16⟩ (by decide), decide_eq_false_iff_not] at hlast
      obtain ⟨x, rfl⟩ := hpos ⟨h1, h16⟩ fun h => hlast h.symm
      exact ⟨[⟨true, 0, []⟩, ⟨false, 0, []⟩, ⟨false, x, []⟩], by rw [injectorMask_free_single hfree rfl rfl rfl]⟩
  · obtain ⟨p, q, hp, hq, hne, rfl⟩ := weight_eq_two_cases (x := m) (by omega)
    rw [bitAt_xor, bitAt_onehot hp (by decide), bitAt_onehot hq (by decide)] at hlast
    have hp16 : p ≠ 16 := by
      rintro rfl
      simp [hne] at hlast
    have hq16 : q ≠ 16 := by
      rintro rfl
      simp [hne.symm] at hlast
    obtain ⟨x, rfl⟩ := hpos hp hp16
    obtain ⟨y, rfl⟩ := hpos hq hq16
    exact ⟨[⟨true, 0, []⟩, ⟨true, 0, []⟩, ⟨false, x, []⟩, ⟨false, y, []⟩],
      by rw [injectorMask_free_double hfree rfl rfl rfl]⟩

/-- Settles O33: the masks are the injector's, and the environment has an answer for each. -/
theorem corruptMasksAreExactlyTheLightOnes : Obligations.CorruptMasksAreExactlyTheLightOnes := by
  intro s cw m hfree
  have hexec (env : List DrawEnv) :=
    exec_corrupt (s := { s with src := { s.src with env := env } }) cw (drawsAllowed_free hfree)
  constructor
  · rintro ⟨env, t, ht, hmask, -⟩
    cases (hexec env).symm.trans ht
    rw [← Option.some_inj.1 hmask]
    exact injectorMask_weight _ _
  · rintro ⟨hbit, hw⟩
    obtain ⟨env, rfl⟩ := exists_env_of_weight hfree s.src hbit hw
    exact ⟨env, _, hexec env, rfl, rfl⟩

/-- The source after a command but SEED: so many draws on, as many as R187 says. -/
theorem exec_draws {i : Instr} {s t : State} (hseed : isSeed i = false) (h : exec i s = .next t) :
    ∃ n, t.src = (Source.advance s.cfg)^[n] s.src ∧ (takesDraws i = false → n = 0) ∧ (i = .loss → n = 1) ∧
      ((∃ cw, i = .corrupt cw) → n = 1 ∨ n = 3 ∨ n = 4) ∧
      ∀ p, i = .process → s.sin = some (.text p) → ProcessDraws (blockCount p.length) t.result.status n := by
  cases hd : takesDraws i with
  | false =>
    refine ⟨0, exec_src hd hseed h, fun _ => rfl, ?_, ?_, ?_⟩
    · rintro rfl; cases hd
    · rintro ⟨cw, rfl⟩; cases hd
    · rintro p rfl; cases hd
  | true =>
    obtain ⟨cw, rfl⟩ | rfl | rfl := takesDraws_cases hd
    · obtain ⟨-, ⟨⟩⟩ := withDraws_eq_next h
      obtain ⟨n, hn, hcount, -⟩ := injectorMask_draws s.cfg s.src
      exact ⟨n, hn, nofun, nofun, fun _ => hcount, nofun⟩
    · obtain ⟨-, ⟨⟩⟩ := withDraws_eq_next h
      exact ⟨1, rfl, nofun, fun _ => rfl, nofun, nofun⟩
    · obtain ⟨x, hx, -, -, rfl⟩ := exec_process_eq_next h
      obtain ⟨n, hn, hcount⟩ := processText_draws x s
      refine ⟨n, hn, nofun, nofun, nofun, fun p _ hp => ?_⟩
      cases hx.symm.trans hp
      exact hcount

/-- Settles O39: the draws of the command are iterates of `advance`, each of which counts 1 and is 16 steps. -/
theorem lfsrCountsTheDraws : Obligations.LfsrCountsTheDraws := by
  intro i s t hmode hone hseed h
  obtain ⟨n, hsrc, hcounts⟩ := exec_draws hseed h
  exact ⟨n, by rw [hsrc, iterate_advance_drawn], by rw [State.lfsr, hsrc, iterate_advance_lfsr hmode hone], hcounts⟩

end Sys2Proof.Slice0
end

section
/-! PROOFS. The statements about PROCESS: its output text, its endings, what a double error ends, and its parts on one
block (R181-R186). -/

namespace Sys2Proof.Slice0

open Sys2Proof.Machine

/-- The padding as text: as many `'0'` as fill the last block (R43, R184). -/
theorem bitsToText_padding (n : Nat) :
    bitsToText (padding n) = List.replicate (11 * ((n + 10) / 11) - n) 0x30#32 := by
  rw [padding, bitsToText, List.map_replicate]
  congr 1
  omega

/-- The output text of a payload's own blocks under KEEP_PADDING: the payload degraded, and padded (R184, R186). -/
theorem outputText_splitBits_keepPadding {c : Config} (h : c.padMode = .keepPadding) (t : List Symbol) :
    outputText c (textToBits t) (splitBits (textToBits t)) =
      degraded t ++ List.replicate (11 * ((t.length + 10) / 11) - t.length) 0x30#32 := by
  have happend : bitsToText (textToBits t ++ padding t.length) =
      bitsToText (textToBits t) ++ bitsToText (padding t.length) := List.map_append
  simp only [outputText, h]
  rw [joinBlocks_splitBits, length_textToBits, happend, bitsToText_textToBits, bitsToText_padding]

/-- The output text of a payload's own blocks under TRUNCATE: the payload degraded (R184, R186). -/
theorem outputText_splitBits_truncate {c : Config} (h : c.padMode = .truncate) (t : List Symbol) :
    outputText c (textToBits t) (splitBits (textToBits t)) = degraded t := by
  simp only [outputText, h]
  rw [joinBlocks_splitBits, List.take_left, bitsToText_textToBits]

/-- Settles O40: by everything PROCESS can do on a payload. -/
theorem processNeverDeliversWrongData : Obligations.ProcessNeverDeliversWrongData := by
  intro s t hs hl hdraws
  rw [exec_process hs hl hdraws]
  obtain ⟨-, hp⟩ | ⟨-, r, -, hp⟩ | ⟨-, r, -, hp⟩ := processText_cases t s
  · exact ⟨_, _, congrArg _ hp, .inl rfl⟩
  · exact ⟨_, _, congrArg _ hp, .inr (.inl rfl)⟩
  · cases hpad : s.cfg.padMode with
    | keepPadding =>
      rw [outputText_splitBits_keepPadding hpad] at hp
      exact ⟨_, _, congrArg _ hp, .inr (.inr rfl)⟩
    | truncate =>
      rw [outputText_splitBits_truncate hpad] at hp
      exact ⟨_, _, congrArg _ hp, .inr (.inr rfl)⟩

/-- The environment's answer to a Bit draw. -/
def answer (b : Bit) : DrawEnv := ⟨b, 0, []⟩

/-- Where the environment answers every event draw with 0, the block loop gives data (R158, R181). -/
theorem processBlocks_of_quiet {c : Config} (hfree : c.rngMode = .free) (ds acc : List DataWord) {r : Source}
    (henv : r.env = List.replicate ds.length (answer false)) :
    (processBlocks c ds acc r).1 = some (acc ++ ds) := by
  induction ds generalizing acc r with
  | nil => simp [processBlocks]
  | cons d ds ih =>
    rw [List.length_cons, List.replicate_succ] at henv
    have hmask := injectorMask_none (c := c) (by rw [bit_free hfree henv]; rfl)
    have hd : (processBlock c d r).1 = some d :=
      (processBlock_data c d r).resolve_right fun hnone => by
        rw [processBlock_eq_none_iff, hmask, decodeBlock_patterns.1] at hnone
        cases hnone
    rw [processBlocks_cons_some c hd, hmask, advance_free_env hfree henv, ih _ rfl, List.append_assoc]
    rfl

/-- Where the environment answers the first event with a double flip at 1 and 2, the block loop fails (R158, R181). -/
theorem processBlocks_of_double {c : Config} (hfree : c.rngMode = .free) (d : DataWord) (ds acc : List DataWord)
    {r : Source} (henv : r.env = [answer true, answer true, answer false, ⟨false, 1, []⟩]) :
    (processBlocks c (d :: ds) acc r).1 = none := by
  have hd : (processBlock c d r).1 = none := by
    rw [processBlock_eq_none_iff, injectorMask_free_double hfree henv rfl rfl]
    exact decodeBlock_onehot_xor (by decide) (by decide) (by decide)
  rw [processBlocks_cons_none c hd]

/-- PROCESS that is not lost ends with OK where its block loop gives data, and with DED where it does not (R181). -/
theorem processText_status_of_kept {t : List Symbol} {s : State} (hkept : s.src.bit s.cfg .lossd = false) :
    (processText t s).result.status = some
      (if (processBlocks s.cfg (splitBits (textToBits t)) [] (s.src.advance s.cfg)).1 = none then .ded else .ok) := by
  obtain ⟨hlost, -⟩ | ⟨-, r, hr, hp⟩ | ⟨-, r, hr, hp⟩ := processText_cases t s
  · rw [hkept] at hlost; cases hlost
  · rw [hp, hr]; rfl
  · rw [hp, hr]; rfl

/-- A payload of no character has no block, and another at least one (R104). -/
theorem splitBits_textToBits_eq_nil_iff (t : List Symbol) : splitBits (textToBits t) = [] ↔ t = [] := by
  rw [← List.length_eq_zero_iff, length_splitBits, length_textToBits, ← List.length_eq_zero_iff (l := t), blockCount]
  omega

/-- PROCESS ends with DED only on a payload of some character. -/
theorem ne_nil_of_ded {t : List Symbol} {s : State} (h : (processText t s).result.status = some .ded) : t ≠ [] := by
  rintro rfl
  cases hl : s.src.bit s.cfg .lossd with
  | true => rw [processText_of_loss s _ hl] at h; cases h
  | false => rw [processText_of_kept s _ hl] at h; cases h

/-- PROCESS never ends with MALFORMED (R204). -/
theorem processText_status_ne_malformed (t : List Symbol) (s : State) :
    (processText t s).result.status ≠ some .malformed := by
  obtain ⟨-, hp⟩ | ⟨-, r, -, hp⟩ | ⟨-, r, -, hp⟩ := processText_cases t s <;> rw [hp] <;> nofun

/-- A loss draw answered with 1 is a loss (R181). -/
theorem processText_lost {t : List Symbol} {s : State} (hfree : s.cfg.rngMode = .free)
    (henv : s.src.env = [answer true]) : (processText t s).result.status = some .loss :=
  (processText_status_eq_loss_iff t s).2 (bit_free hfree henv _)

/-- No loss and no event: the payload is delivered (R181). -/
theorem processText_delivered {t : List Symbol} {s : State} (hfree : s.cfg.rngMode = .free)
    (henv : s.src.env = answer false :: List.replicate (splitBits (textToBits t)).length (answer false)) :
    (processText t s).result.status = some .ok := by
  rw [processText_status_of_kept (bit_free hfree henv _), advance_free_env hfree henv,
    processBlocks_of_quiet hfree _ _ rfl]
  rfl

/-- No loss and a double flip in the first block: the payload is not delivered (R181). -/
theorem processText_failed {t : List Symbol} {s : State} (hfree : s.cfg.rngMode = .free) (hne : t ≠ [])
    (henv : s.src.env = [answer false, answer true, answer true, answer false, ⟨false, 1, []⟩]) :
    (processText t s).result.status = some .ded := by
  obtain ⟨d, ds, hds⟩ := List.exists_cons_of_ne_nil ((splitBits_textToBits_eq_nil_iff t).not.2 hne)
  rw [processText_status_of_kept (bit_free hfree henv _), advance_free_env hfree henv, hds,
    processBlocks_of_double hfree _ _ _ rfl]
  rfl

/-- Settles O41: each ending has its answers of the environment, and DED needs a block. -/
theorem processOutcomesAreReachable : Obligations.ProcessOutcomesAreReachable := by
  intro s t hfree hl st
  have hexec (env : List DrawEnv) := exec_process
    (s := { s with sin := some (.text t), src := { s.src with env := env } }) rfl hl (drawsAllowed_free hfree)
  constructor
  · rintro ⟨env, u, hu, hst⟩
    cases (hexec env).symm.trans hu
    cases st with
    | ok => exact .inr (.inl rfl)
    | loss => exact .inl rfl
    | malformed => exact absurd hst (processText_status_ne_malformed _ _)
    | ded => exact .inr (.inr ⟨rfl, ne_nil_of_ded hst⟩)
  · rintro (rfl | rfl | ⟨rfl, hne⟩)
    · exact ⟨_, _, hexec [answer true], processText_lost hfree rfl⟩
    · exact ⟨_, _, hexec (answer false :: List.replicate _ (answer false)), processText_delivered hfree rfl⟩
    · exact ⟨_, _, hexec [answer false, answer true, answer true, answer false, ⟨false, 1, []⟩],
        processText_failed hfree hne rfl⟩

/-- SPLIT does not see its own padding (R43, R103). -/
theorem splitBits_append_padding (bits : List Bit) : splitBits (bits ++ padding bits.length) = splitBits bits := by
  rw [← joinBlocks_splitBits, splitBits_joinBlocks]

/-- Whole blocks are cut by themselves (R103). -/
theorem splitBits_append {a : List Bit} (h : 11 ∣ a.length) (b : List Bit) :
    splitBits (a ++ b) = splitBits a ++ splitBits b := by
  have hpad : padding (a ++ b).length = padding b.length := by
    rw [padding, padding, List.length_append]
    congr 1
    omega
  have hjoin : joinBlocks (splitBits a ++ splitBits b) = (a ++ b) ++ padding (a ++ b).length := by
    have happend : joinBlocks (splitBits a ++ splitBits b) = joinBlocks (splitBits a) ++ joinBlocks (splitBits b) :=
      List.flatMap_append
    rw [happend, joinBlocks_splitBits, joinBlocks_splitBits, (padding_eq_nil_iff _).2 h, hpad, List.append_nil,
      List.append_assoc]
  rw [← splitBits_append_padding, ← hjoin, splitBits_joinBlocks]

/-- PROCESS issued on a payload it accepts; the operand is not kept (R22, R181). -/
theorem exec_process_on {s : State} {t : List Symbol} (hl : t.length ≤ s.cfg.maxChars)
    (hdraws : drawsAllowed s.cfg = true) :
    exec .process { s with sin := some (.text t) } = .next (processText t s) :=
  exec_process rfl hl hdraws

/-- A double error in whole blocks ends PROCESS before what follows them (R183). -/
theorem processText_append_of_ded {t : List Symbol} {s : State} (hdvd : 11 ∣ t.length)
    (h : (processText t s).result.status = some .ded) (more : List Symbol) :
    processText (t ++ more) s = processText t s ∧ (processText t s).result.sout = none := by
  obtain ⟨-, hp⟩ | ⟨hkept, r, hr, hp⟩ | ⟨-, r, -, hp⟩ := processText_cases t s
  · rw [hp] at h; cases h
  · have hblocks : splitBits (textToBits (t ++ more)) = splitBits (textToBits t) ++ splitBits (textToBits more) := by
      rw [← splitBits_append (by rwa [length_textToBits])]
      exact congrArg splitBits List.map_append
    have hend := processBlocks_append_none s.cfg (splitBits (textToBits t)) (splitBits (textToBits more)) []
      (s.src.advance s.cfg) (by rw [hr])
    rw [processText_of_kept _ _ hkept, hblocks, hend, hr, hp]
    exact ⟨rfl, rfl⟩
  · rw [hp] at h; cases h

/-- Settles O43: the block loop ends in the payload's own blocks, and so does not reach the others. -/
theorem furtherBlocksChangeNothingAfterDed : Obligations.FurtherBlocksChangeNothingAfterDed := by
  intro s u t more hdvd hl h hded
  obtain ⟨x, -, -, hdraws, -⟩ := exec_process_eq_next h
  have hshort : t.length ≤ s.cfg.maxChars := by
    rw [List.length_append] at hl
    omega
  cases (exec_process_on hshort hdraws).symm.trans h
  obtain ⟨hsame, hsout⟩ := processText_append_of_ded hdvd hded more
  exact ⟨by rw [exec_process_on hl hdraws, hsame], hsout⟩

/-- The block loop on one block (R181). -/
theorem processBlocks_singleton (c : Config) (d : DataWord) (r : Source) :
    processBlocks c [d] [] r = ((processBlock c d r).1.map ([·]), (injectorMask c r).2) := by
  cases hd : (processBlock c d r).1 with
  | none => rw [processBlocks_cons_none c hd]; rfl
  | some x => rw [processBlocks_cons_some c hd]; rfl

/-- Settles O45: each command's state is known, and PROCESS does to its one block what they do. -/
theorem processOfOneBlockIsItsParts : Obligations.ProcessOfOneBlockIsItsParts := by
  intro s s1 s2 s3 s4 u t d cw cw2 hl hblock hloss hres1 hencode hcw hcorrupt hcw2 hdecode hprocess
  obtain ⟨hdraws, ⟨⟩⟩ := withDraws_eq_next hloss
  have hkept : s.src.bit s.cfg .lossd = false := by
    cases hbit : s.src.bit s.cfg .lossd with
    | false => rfl
    | true =>
      rw [State.completeOk_result, hbit] at hres1
      cases Option.some_inj.1 hres1
  cases (exec_encode d).symm.trans hencode
  cases hcw
  obtain ⟨-, ⟨⟩⟩ := withDraws_eq_next hcorrupt
  cases hcw2
  cases (exec_process_on hl hdraws).symm.trans hprocess
  rw [processText_of_kept _ _ hkept, hblock, processBlocks_singleton]
  cases hd : (processBlock s.cfg d (s.src.advance s.cfg)).1 with
  | none =>
    cases (exec_decode_none hd).symm.trans hdecode
    exact ⟨rfl, rfl⟩
  | some x =>
    cases (exec_decode_some hd).symm.trans hdecode
    exact ⟨rfl, rfl⟩

end Sys2Proof.Slice0
end
